-- ==== Sys2Proof/Word.lean ====
section
/-! DEFINITION. The byte, the five value widths and the two native widths (spec/00_scope.md R4, R5, R9, R12). -/

namespace Sys2Proof

/-- R12: a byte is 8 bits. -/
abbrev Byte := BitVec 8

/-- R4: the value width of an operation is one of exactly five values. -/
inductive Width where
  | w8 | w16 | w32 | w64 | w128
  deriving DecidableEq, Repr

/-- R81, WIDTH_W: the number of bits of a value of this width. -/
@[reducible] def Width.bits : Width → Nat
  | .w8 => 8
  | .w16 => 16
  | .w32 => 32
  | .w64 => 64
  | .w128 => 128

/-- R5: the two legal values of the static parameter NATIVE_W. -/
inductive NativeWidth where
  | n32 | n64
  deriving DecidableEq, Repr

/-- R5, R75: the width the native operations are an alias of. -/
@[reducible] def NativeWidth.width : NativeWidth → Width
  | .n32 => .w32
  | .n64 => .w64

end Sys2Proof
end

