-- ==== Sys2Proof/Config.lean ====
section
/-! DEFINITION. What an implementation fixes and the spec leaves OPEN (spec/92_eei_decisions.md D3, D4, D10). -/

namespace Sys2Proof

/-- How many bytes the destination buffer of a width has beyond MAXLEN_W. R8 and D3 fix only BUFCAP_W ≥ MAXLEN_W, so
this has no body: a claim holds for every admissible capacity (DESIGN CHOICE, log 4, safe). -/
opaque Config.bufHeadroom : Width → Nat

/-- NATIVE_W in `State.reset`. R5 and D4 leave 32 or 64 OPEN; every claim about the machine ranges over both values of
`State.native` (DESIGN CHOICE, log 3, unsafe for a claim about the reset state alone). -/
def Config.resetNative : NativeWidth := .n64

/-- What a byte that nothing has written reads as in `State.reset`. R35 and R171 leave it unspecified; every claim about
the machine ranges over every fill byte and all contents (DESIGN CHOICE, log 2, unsafe for a claim about the reset state alone). -/
def Config.resetFill : Byte := 0x00#8

end Sys2Proof
end

