-- ==== Sys2Proof/Syntax.lean ====
section
/-! DEFINITION. The operations with their operands, and the input ports they are presented on
(spec/30_encoding.md R72 to R76, spec/10_state.md section 7). -/

namespace Sys2Proof

/-- R25: the decoder's input view, n bytes of the caller's memory from `base` on. Index 0 of the view is the byte at
`base` (R46, R51). Where a view stands is a natural number (DESIGN CHOICE, log 1). -/
structure InView where
  base : Nat
  len : Nat
  deriving DecidableEq, Repr

/-- R111: the value operand of ENCN, of exactly NATIVE_W bits. -/
inductive NativeValue where
  | n32 (value : BitVec 32)
  | n64 (value : BitVec 64)
  deriving DecidableEq, Repr

/-- R2, R72: the twelve operations, one constructor per row of the table. An encoder operation takes its destination
buffer (the address of OBUF[0]) and one value; a decoder operation takes one input view (R76). -/
inductive Instr where
  | enc8 (obuf : Nat) (value : BitVec 8)
  | enc16 (obuf : Nat) (value : BitVec 16)
  | enc32 (obuf : Nat) (value : BitVec 32)
  | enc64 (obuf : Nat) (value : BitVec 64)
  | enc128 (obuf : Nat) (value : BitVec 128)
  | encN (obuf : Nat) (value : NativeValue)
  | dec8 (ibuf : InView)
  | dec16 (ibuf : InView)
  | dec32 (ibuf : InView)
  | dec64 (ibuf : InView)
  | dec128 (ibuf : InView)
  | decN (ibuf : InView)
  deriving DecidableEq, Repr

/-- The input ports of spec/10_state.md section 7, as the environment drives them for one operation. VALUE is as wide as
the widest operation needs (DESIGN CHOICE, log 7). A port an operation does not have is not read. -/
structure Ports where
  opsel : BitVec 4
  value : BitVec 128
  obuf : Nat
  ibuf : Nat
  ilen : Nat
  deriving DecidableEq, Repr

/-- Why the decoder of operations rejects what stands on the ports. -/
inductive Reject where
  /-- R73: WSEL is 6 or 7. -/
  | reservedOpsel
  /-- R22: VALUE has a bit set at or above bit W, so it is no `bits(W)` (log 7). -/
  | valueTooWide
  deriving DecidableEq, Repr

end Sys2Proof
end

