-- ==== Sys2Proof/WellFormed.lean ====
section
/-! DEFINITION. Which operations and which port settings the spec gives a meaning (spec/00_scope.md R5, R9,
spec/10_state.md R22, spec/30_encoding.md R73). -/

namespace Sys2Proof

/-- The setting of NATIVE_W under which a native value operand exists (R111). -/
def NativeValue.native : NativeValue → NativeWidth
  | .n32 _ => .n32
  | .n64 _ => .n64

/-- An operation is well formed when its native value, if it has one, has NATIVE_W bits (R111, N20). Every other
operand is well formed by its type: VALUE is any `bits(W)` (R9), a buffer or a view may stand anywhere (R51). -/
def Instr.wellFormed (native : NativeWidth) : Instr → Bool
  | .enc8 _ _ => true
  | .enc16 _ _ => true
  | .enc32 _ _ => true
  | .enc64 _ _ => true
  | .enc128 _ _ => true
  | .encN _ value => value.native == native
  | .dec8 _ => true
  | .dec16 _ => true
  | .dec32 _ => true
  | .dec64 _ => true
  | .dec128 _ => true
  | .decN _ => true

/-- DIR, bit 3 of OPSEL: true for a decoder operation (R72). -/
def Ports.isDecode (p : Ports) : Bool := decide (8 ≤ p.opsel.toNat)

/-- WSEL, bits 2 to 0 of OPSEL, as a number (R72). -/
def Ports.wsel (p : Ports) : Nat := p.opsel.toNat % 8

/-- The width WSEL selects; none for the two reserved selects (R72, R73). -/
def wselWidth (native : NativeWidth) (wsel : Nat) : Option Width :=
  match wsel with
  | 0 => some .w8
  | 1 => some .w16
  | 2 => some .w32
  | 3 => some .w64
  | 4 => some .w128
  | 5 => some native.width
  | _ => none

/-- The ports hold an operation: WSEL is not reserved (R73), and for an encoder operation VALUE is a number of W bits
(R9, R22). -/
def Ports.wellFormed (native : NativeWidth) (p : Ports) : Bool :=
  match wselWidth native p.wsel with
  | none => false
  | some w => p.isDecode || decide (p.value.toNat < 2 ^ w.bits)

end Sys2Proof
end

