-- ==== Sys2Proof/Decode.lean ====
section
/-! DEFINITION. From the input ports to an operation, total and rejecting by name, and back
(spec/30_encoding.md R72 to R76, spec/opcode_table.json). -/

namespace Sys2Proof

/-- VALUE as a number of W bits; a port value that does not fit W bits is no VALUE of the operation (R22, log 7). -/
def valueOfWidth (w : Nat) (p : Ports) : Except Reject (BitVec w) :=
  if p.value.toNat < 2 ^ w then .ok (p.value.setWidth w) else .error .valueTooWide

/-- The native value operand under this setting of NATIVE_W (R111). -/
def nativeValueOf (native : NativeWidth) (p : Ports) : Except Reject NativeValue :=
  match native with
  | .n32 => (valueOfWidth 32 p).map .n32
  | .n64 => (valueOfWidth 64 p).map .n64

/-- The input view on the IBUF and ILEN ports (R25). -/
def Ports.view (p : Ports) : InView := ⟨p.ibuf, p.ilen⟩

/-- R72, the operation-select table; R73, the four reserved codes. -/
def decode (native : NativeWidth) (p : Ports) : Except Reject Instr :=
  match p.opsel.toNat with
  | 0b0000 => (valueOfWidth 8 p).map (.enc8 p.obuf)
  | 0b0001 => (valueOfWidth 16 p).map (.enc16 p.obuf)
  | 0b0010 => (valueOfWidth 32 p).map (.enc32 p.obuf)
  | 0b0011 => (valueOfWidth 64 p).map (.enc64 p.obuf)
  | 0b0100 => (valueOfWidth 128 p).map (.enc128 p.obuf)
  | 0b0101 => (nativeValueOf native p).map (.encN p.obuf)
  | 0b1000 => .ok (.dec8 p.view)
  | 0b1001 => .ok (.dec16 p.view)
  | 0b1010 => .ok (.dec32 p.view)
  | 0b1011 => .ok (.dec64 p.view)
  | 0b1100 => .ok (.dec128 p.view)
  | 0b1101 => .ok (.decN p.view)
  | _ => .error .reservedOpsel

/-- The ports with this operation-select code and every operand port at zero. -/
def Ports.zeros (opsel : BitVec 4) : Ports := ⟨opsel, 0, 0, 0, 0⟩

/-- The ports of an encoder operation; the ports it does not have are zero. -/
def Ports.forEncoder {w : Nat} (opsel : BitVec 4) (obuf : Nat) (value : BitVec w) : Ports :=
  ⟨opsel, value.setWidth 128, obuf, 0, 0⟩

/-- The ports of a decoder operation; the ports it does not have are zero. -/
def Ports.forDecoder (opsel : BitVec 4) (ibuf : InView) : Ports := ⟨opsel, 0, 0, ibuf.base, ibuf.len⟩

/-- The ports that present an operation (R72). -/
def encode : Instr → Ports
  | .enc8 obuf value => .forEncoder 0b0000#4 obuf value
  | .enc16 obuf value => .forEncoder 0b0001#4 obuf value
  | .enc32 obuf value => .forEncoder 0b0010#4 obuf value
  | .enc64 obuf value => .forEncoder 0b0011#4 obuf value
  | .enc128 obuf value => .forEncoder 0b0100#4 obuf value
  | .encN obuf (.n32 value) => .forEncoder 0b0101#4 obuf value
  | .encN obuf (.n64 value) => .forEncoder 0b0101#4 obuf value
  | .dec8 ibuf => .forDecoder 0b1000#4 ibuf
  | .dec16 ibuf => .forDecoder 0b1001#4 ibuf
  | .dec32 ibuf => .forDecoder 0b1010#4 ibuf
  | .dec64 ibuf => .forDecoder 0b1011#4 ibuf
  | .dec128 ibuf => .forDecoder 0b1100#4 ibuf
  | .decN ibuf => .forDecoder 0b1101#4 ibuf

/-- What the decoder reads from a row of the table with operand ports of zeros. OPSEL is 4 bits and the table's mask is
0xF, so the bits of `w` above bit 3 are on no port (log 9). -/
def decodeTableWord (_nbits w : Nat) : Option Instr :=
  (decode Config.resetNative (Ports.zeros (BitVec.ofNat 4 w))).toOption

end Sys2Proof
end

