-- ==== Sys2Proof/Machine/State.lean ====
section
/-! DEFINITION. The machine's state as plain data, why a step can refuse, and the state after reset
(spec/10_state.md, spec/60_exceptions.md R150, R164). -/

namespace Sys2Proof.Machine

/-- The caller's memory (R21, R40): the bytes written so far, and what every other byte reads as. `fill` is the model's
own: R35 and U10 let an unwritten byte hold any value, and no claim rests on which (DESIGN CHOICE, log 2). -/
structure Memory where
  fill : Byte
  cells : List Host.Cell
  deriving DecidableEq, Repr

/-- R150: exactly two error kinds, both the decoder's. -/
inductive DecodeError where
  | insufficient
  | overflow
  deriving DecidableEq, Repr

/-- R26: the decoder's result at width W. An error carries nothing but its kind (R140, R153). -/
inductive DecodeResult (w : Nat) where
  | ok (value : BitVec w) (consumed : Nat)
  | err (kind : DecodeError)
  deriving DecidableEq, Repr

/-- What the last completed operation returned: LEN (R24), or a decoder's result at its width (R26). `none` before the
first operation (R35). -/
inductive Response where
  | none
  | len (n : Nat)
  | result (w : Width) (r : DecodeResult w.bits)
  deriving DecidableEq, Repr

/-- One operation presented by the environment: its ports, and how many of the requests after it start before it ends
(R36, R54, R55; DESIGN CHOICE, log 6). -/
structure Request where
  ports : Ports
  overlap : Nat
  deriving DecidableEq, Repr

/-- The state. `mem` outlives operations (R21); `queue` holds the operations the environment has presented and the block
has not run, in the order they start (R32, log 5); `response` is what the last one returned (log 10); `native` is the
static parameter NATIVE_W (R5, R34, log 3). -/
structure State where
  mem : Memory
  queue : List Request
  response : Response
  native : NativeWidth
  deriving DecidableEq, Repr

/-- No step of this block faults: every operation on admitted operands completes with a defined result (R104, R129,
R139; spec/93_implementation_defined.md, end of Part 1). The decode errors are results (R155). -/
inductive Fault where
  deriving DecidableEq, Repr

/-- Why a step has no next state. None of these is an event of the hardware (R164). -/
inductive Refusal where
  /-- Raised by an arm of exec that has no meaning yet. Safe. No arm raises it. -/
  | notModelled (mnemonic : String)
  /-- Raised by step on an OPSEL with WSEL 6 or 7 (R73, R164). Safe. -/
  | reservedOpsel
  /-- Raised by step when VALUE is no number of W bits (R22, log 7). Safe. -/
  | valueTooWide
  /-- Raised by step on operations that overlap in time and in their bytes (R55, R164). Safe. -/
  | aliasedBuffer
  /-- Raised by ENCN given an operand that is not of NATIVE_W bits; no step reaches it (R111, log 8). Safe. -/
  | nativeWidthMismatch
  deriving DecidableEq, Repr

/-- After reset (R35, R170): nothing in the block to initialise, no operation presented, none completed. -/
def State.reset : State where
  mem := ⟨Config.resetFill, []⟩
  queue := []
  response := .none
  native := Config.resetNative

end Sys2Proof.Machine
end

