-- ==== Sys2Proof/Machine/Ops.lean ====
section
/-! DEFINITION. The operations over memory and the result port (spec/20_memory.md, spec/00_scope.md R13,
spec/10_state.md R24, R26). The block has no registers to read or write (R31) and no exception to take or return from
(spec/60_exceptions.md R155, R158). -/

namespace Sys2Proof.Machine

/-- What a byte that is not listed reads as (R171, log 2). -/
def Memory.unlisted (m : Memory) : Byte := m.fill

/-- The byte listed at an address. -/
def lookupCell : List Host.Cell → Nat → Option Byte
  | [], _ => none
  | (a', b) :: t, a => if a' = a then some b else lookupCell t a

/-- MemRead of one byte (R13, R46). No side effect (R48). -/
def Memory.read (m : Memory) (a : Nat) : Byte := (lookupCell m.cells a).getD m.unlisted

/-- The cells without any at this address. -/
def eraseCell (a : Nat) (cells : List Host.Cell) : List Host.Cell := cells.filter (fun c => c.1 != a)

/-- Put a cell before the first one at a larger address. -/
def insertCell (c : Host.Cell) : List Host.Cell → List Host.Cell
  | [] => [c]
  | d :: t => if c.1 < d.1 then c :: d :: t else d :: insertCell c t

/-- MemWrite of one byte (R13, R46). Writing what an unlisted byte reads as leaves the address unlisted. -/
def Memory.write (m : Memory) (a : Nat) (b : Byte) : Memory :=
  if b = m.unlisted then { m with cells := eraseCell a m.cells }
  else { m with cells := insertCell (a, b) (eraseCell a m.cells) }

/-- Addresses strictly rising. -/
def risingCells : List Host.Cell → Bool
  | [] => true
  | c :: t => t.all (fun d => decide (c.1 < d.1)) && risingCells t

/-- The canonical form: addresses strictly rising, no listed byte equal to an unlisted one. -/
def Memory.wf (m : Memory) : Bool :=
  risingCells m.cells && m.cells.all (fun c => c.2 != m.unlisted)

/-- The state after an operation that leaves this memory and returns this result. Nothing else changes (R20). -/
def State.finish (s : State) (mem : Memory) (response : Response) : State := { s with mem := mem, response := response }

/-- The state with this queue of requests. -/
def State.withQueue (s : State) (queue : List Request) : State := { s with queue := queue }

/-- An operation completes and delivers what it returns (R24, R26, R155). -/
def complete (mem : Memory) (response : Response) (s : State) : Host.Outcome State Fault Refusal :=
  .next (s.finish mem response)

end Sys2Proof.Machine
end

