-- ==== Sys2Proof/Machine/Flags.lean ====
section
/-! DEFINITION. The block has no flags (spec/10_state.md R33). What stands in their place: the continuation bit of a byte
(spec/30_encoding.md R61, spec/40_shift_mask_network.md R93) and the STATUS code of a decoder's result
(spec/60_exceptions.md R163). -/

namespace Sys2Proof.Machine

/-- R93, SETC: a 7-bit group as a continuation byte. -/
def setC (g : BitVec 7) : Byte := g.setWidth 8 ||| 0x80#8

/-- R93, CLRC: the byte with its continuation bit clear. -/
def clrC (b : Byte) : Byte := b &&& 0x7F#8

/-- R93, ISLAST: the continuation bit is clear. -/
def isLast (b : Byte) : Bool := b &&& 0x80#8 == 0#8

/-- R163: the 2-bit STATUS code; 3 is never produced. The numbers are the spec's own labels (D7). -/
def DecodeResult.status {w : Nat} : DecodeResult w → BitVec 2
  | .ok _ _ => 0
  | .err .insufficient => 1
  | .err .overflow => 2

end Sys2Proof.Machine
end

