-- ==== Sys2Proof/Machine/Operands.lean ====
section
/-! DEFINITION. The per-width constants (spec/00_scope.md R6 to R8) and the bit-width parameterized shift-and-mask network
(spec/40_shift_mask_network.md R80 to R92). -/

namespace Sys2Proof.Machine

/-- R6: the maximum encoded length in bytes, ceil(W/7). -/
def maxLen : Width → Nat
  | .w8 => 2
  | .w16 => 3
  | .w32 => 5
  | .w64 => 10
  | .w128 => 19

/-- R7: the index of the last byte the decoder may examine. -/
def maxGroups : Width → Nat
  | .w8 => 1
  | .w16 => 2
  | .w32 => 4
  | .w64 => 9
  | .w128 => 18

/-- R8: the capacity of the destination buffer, any number of bytes from MAXLEN_W up (log 4). -/
def bufCap (w : Width) : Nat := maxLen w + Config.bufHeadroom w

/-- R82, ZERO_W. -/
def zeroW (w : Nat) : BitVec w := 0

/-- R83, SHR_W: logical right shift. A shift by W or more is never asked for (R91, log 12). -/
def shrW {w : Nat} (v : BitVec w) (s : Nat) : BitVec w := v >>> s

/-- R84, SHL_W: left shift, truncating to W bits. A shift by W or more is never asked for (R91, log 12). -/
def shlW {w : Nat} (v : BitVec w) (s : Nat) : BitVec w := v <<< s

/-- R85, AND_W. -/
def andW {w : Nat} (a b : BitVec w) : BitVec w := a &&& b

/-- R86, OR_W. -/
def orW {w : Nat} (a b : BitVec w) : BitVec w := a ||| b

/-- How many of bits k − 1, k − 2, …, 0 of v are zero before the first one that is set. -/
def clzBelow {w : Nat} (v : BitVec w) : Nat → Nat
  | 0 => 0
  | k + 1 => if v.getLsbD k then 0 else clzBelow v k + 1

/-- R87, CLZ_W: the number of consecutive zero bits from bit W − 1 down. -/
def clzW {w : Nat} (v : BitVec w) : Nat := clzBelow v w

/-- R88, SIGBITS_W. -/
def sigBits {w : Nat} (v : BitVec w) : Nat := max 1 (w - clzW v)

/-- R89, GROUPCOUNT. -/
def groupCount (b : Nat) : Nat := max 1 ((b + 6) / 7)

/-- R92, EXTRACT7_W: bits 7i + 6 down to 7i of v. -/
def extract7 {w : Nat} (v : BitVec w) (i : Nat) : BitVec 7 := (shrW v (7 * i)).setWidth 7

/-- R90, INSERT7_W: or the group of a byte into its place, in W bits. -/
def insert7 {w : Nat} (num : BitVec w) (b : Byte) (i : Nat) : BitVec w :=
  orW num (shlW ((andW b 0x7F#8).setWidth w) (7 * i))

end Sys2Proof.Machine
end

