-- ==== Sys2Proof/Machine/Decoder.lean ====
section
/-! DEFINITION. The decoder operations (spec/42_decoder.md R120 to R142). -/

namespace Sys2Proof.Machine

/-- R121, R122: the loop from index i on, with the accumulator `num`. `left` is MAXGROUPS_W − i, so that `left = 0` is the
comparison i = MAXGROUPS_W, made after the terminal test (R123). -/
def decodeLoop {w : Nat} (m : Memory) (ibuf : InView) : (left i : Nat) → BitVec w → DecodeResult w
  | left, i, num =>
    if ibuf.len ≤ i then .err .insufficient
    else if isLast (m.read (ibuf.base + i)) then .ok (insert7 num (m.read (ibuf.base + i)) i) (i + 1)
    else
      match left with
      | 0 => .err .overflow
      | left + 1 => decodeLoop m ibuf left (i + 1) (insert7 num (m.read (ibuf.base + i)) i)

/-- R121: the accumulator starts at ZERO_W and the index at 0 (R28, R29). -/
def decodeView (w : Width) (m : Memory) (ibuf : InView) : DecodeResult w.bits :=
  decodeLoop m ibuf (maxGroups w) 0 (zeroW w.bits)

/-- R120: a decoder operation. It writes no memory (R131); an error is delivered as a result (R155). -/
def decodeOp (w : Width) (ibuf : InView) (s : State) : Host.Outcome State Fault Refusal :=
  complete s.mem (.result w (decodeView w s.mem ibuf)) s

/-- R133, DEC8. -/
def execDec8 (ibuf : InView) (s : State) : Host.Outcome State Fault Refusal := decodeOp .w8 ibuf s

/-- R134, DEC16. -/
def execDec16 (ibuf : InView) (s : State) : Host.Outcome State Fault Refusal := decodeOp .w16 ibuf s

/-- R135, DEC32. -/
def execDec32 (ibuf : InView) (s : State) : Host.Outcome State Fault Refusal := decodeOp .w32 ibuf s

/-- R136, DEC64. -/
def execDec64 (ibuf : InView) (s : State) : Host.Outcome State Fault Refusal := decodeOp .w64 ibuf s

/-- R137, DEC128. -/
def execDec128 (ibuf : InView) (s : State) : Host.Outcome State Fault Refusal := decodeOp .w128 ibuf s

/-- R138, DECN: the 32-bit or the 64-bit decoder as NATIVE_W says. -/
def execDecN (ibuf : InView) (s : State) : Host.Outcome State Fault Refusal := decodeOp s.native.width ibuf s

end Sys2Proof.Machine
end

