-- ==== Sys2Proof/Machine/Encoder.lean ====
section
/-! DEFINITION. The encoder operations (spec/41_encoder.md R100 to R114). -/

namespace Sys2Proof.Machine

/-- R102: the length of the encoding of v. -/
def encLen {w : Nat} (v : BitVec w) : Nat := groupCount (sigBits v)

/-- R101, the loop: write bytes 0 to k − 1, each with the continuation bit set. -/
def writeGroups {w : Nat} (v : BitVec w) (obuf : Nat) (m : Memory) : Nat → Memory
  | 0 => m
  | k + 1 => (writeGroups v obuf m k).write (obuf + k) (setC (extract7 v k))

/-- R101: the loop over all len groups, then clear the continuation bit of the last byte written. The intermediate last
byte is not observable (R50). Bytes from len on keep their values (R49, log 11). -/
def encodeInto {w : Nat} (v : BitVec w) (obuf : Nat) (m : Memory) : Memory :=
  let len := encLen v
  (writeGroups v obuf m len).write (obuf + (len - 1)) (clrC (setC (extract7 v (len - 1))))

/-- R100: an encoder operation. It has no failure mode (R104). -/
def encodeOp {w : Nat} (obuf : Nat) (v : BitVec w) (s : State) : Host.Outcome State Fault Refusal :=
  complete (encodeInto v obuf s.mem) (.len (encLen v)) s

/-- R106, ENC8. -/
def execEnc8 (obuf : Nat) (value : BitVec 8) (s : State) : Host.Outcome State Fault Refusal := encodeOp obuf value s

/-- R107, ENC16. -/
def execEnc16 (obuf : Nat) (value : BitVec 16) (s : State) : Host.Outcome State Fault Refusal := encodeOp obuf value s

/-- R108, ENC32. -/
def execEnc32 (obuf : Nat) (value : BitVec 32) (s : State) : Host.Outcome State Fault Refusal := encodeOp obuf value s

/-- R109, ENC64. -/
def execEnc64 (obuf : Nat) (value : BitVec 64) (s : State) : Host.Outcome State Fault Refusal := encodeOp obuf value s

/-- R110, ENC128. -/
def execEnc128 (obuf : Nat) (value : BitVec 128) (s : State) : Host.Outcome State Fault Refusal := encodeOp obuf value s

/-- R111, ENCN: the 32-bit or the 64-bit encoder as NATIVE_W says. An operand of the other width does not exist (N20);
the decoder of operations never gives one (log 8). -/
def execEncN (obuf : Nat) (value : NativeValue) (s : State) : Host.Outcome State Fault Refusal :=
  match s.native, value with
  | .n32, .n32 v => encodeOp obuf v s
  | .n64, .n64 v => encodeOp obuf v s
  | .n32, .n64 _ => .refused .nativeWidthMismatch
  | .n64, .n32 _ => .refused .nativeWidthMismatch

end Sys2Proof.Machine
end

