-- ==== Sys2Proof/Machine/Dispatch.lean ====
section
/-! DEFINITION. One arm per operation of spec/30_encoding.md R72. -/

namespace Sys2Proof.Machine

def exec (i : Instr) (s : State) : Host.Outcome State Fault Refusal :=
  match i with
  | .enc8 obuf value => Sys2Proof.Machine.execEnc8 obuf value s
  | .enc16 obuf value => Sys2Proof.Machine.execEnc16 obuf value s
  | .enc32 obuf value => Sys2Proof.Machine.execEnc32 obuf value s
  | .enc64 obuf value => Sys2Proof.Machine.execEnc64 obuf value s
  | .enc128 obuf value => Sys2Proof.Machine.execEnc128 obuf value s
  | .encN obuf value => Sys2Proof.Machine.execEncN obuf value s
  | .dec8 ibuf => Sys2Proof.Machine.execDec8 ibuf s
  | .dec16 ibuf => Sys2Proof.Machine.execDec16 ibuf s
  | .dec32 ibuf => Sys2Proof.Machine.execDec32 ibuf s
  | .dec64 ibuf => Sys2Proof.Machine.execDec64 ibuf s
  | .dec128 ibuf => Sys2Proof.Machine.execDec128 ibuf s
  | .decN ibuf => Sys2Proof.Machine.execDecN ibuf s

end Sys2Proof.Machine
end

