-- ==== Sys2Proof/Machine/Aliasing.lean ====
section
/-! DEFINITION. The bytes an operation touches and when two operations in progress at once are refused
(spec/20_memory.md R47, R48, R54, R55; spec/60_exceptions.md R164; spec/95_test_vectors.md F2, F3; log 6). -/

namespace Sys2Proof.Machine

/-- A run of bytes of the caller's memory. -/
structure Span where
  base : Nat
  len : Nat
  deriving DecidableEq, Repr

/-- An address lies in the span. -/
def Span.has (f : Span) (a : Nat) : Bool := decide (f.base ≤ a) && decide (a < f.base + f.len)

/-- Two spans share a byte. -/
def Span.meets (f g : Span) : Bool := decide (max f.base g.base < min (f.base + f.len) (g.base + g.len))

/-- No byte. -/
def Span.empty : Span := ⟨0, 0⟩

/-- R47: the write footprint, OBUF[0] to OBUF[len − 1]; a decoder operation writes nothing (R42). -/
def writesOf : Instr → Span
  | .enc8 obuf value => ⟨obuf, encLen value⟩
  | .enc16 obuf value => ⟨obuf, encLen value⟩
  | .enc32 obuf value => ⟨obuf, encLen value⟩
  | .enc64 obuf value => ⟨obuf, encLen value⟩
  | .enc128 obuf value => ⟨obuf, encLen value⟩
  | .encN obuf (.n32 value) => ⟨obuf, encLen value⟩
  | .encN obuf (.n64 value) => ⟨obuf, encLen value⟩
  | .dec8 _ => .empty
  | .dec16 _ => .empty
  | .dec32 _ => .empty
  | .dec64 _ => .empty
  | .dec128 _ => .empty
  | .decN _ => .empty

/-- R48, R153: how many bytes a decode examines: those it consumes, all n, or MAXLEN_W. -/
def examined (w : Width) (m : Memory) (ibuf : InView) : Nat :=
  match decodeView w m ibuf with
  | .ok _ consumed => consumed
  | .err .insufficient => ibuf.len
  | .err .overflow => maxLen w

/-- R48: the read footprint; an encoder operation reads nothing (R47). -/
def readsOf (native : NativeWidth) (m : Memory) : Instr → Span
  | .enc8 _ _ => .empty
  | .enc16 _ _ => .empty
  | .enc32 _ _ => .empty
  | .enc64 _ _ => .empty
  | .enc128 _ _ => .empty
  | .encN _ _ => .empty
  | .dec8 ibuf => ⟨ibuf.base, examined .w8 m ibuf⟩
  | .dec16 ibuf => ⟨ibuf.base, examined .w16 m ibuf⟩
  | .dec32 ibuf => ⟨ibuf.base, examined .w32 m ibuf⟩
  | .dec64 ibuf => ⟨ibuf.base, examined .w64 m ibuf⟩
  | .dec128 ibuf => ⟨ibuf.base, examined .w128 m ibuf⟩
  | .decN ibuf => ⟨ibuf.base, examined native.width m ibuf⟩

/-- R55: a byte that one of the two operations writes and the other writes or reads, `i` starting in the memory `m` and
`j` in the memory `m'`: what it starts in decides how far a decode reads (R48). -/
def conflicts (native : NativeWidth) (m : Memory) (i : Instr) (m' : Memory) (j : Instr) : Bool :=
  (writesOf i).meets (writesOf j)
    || (writesOf i).meets (readsOf native m' j)
    || (readsOf native m i).meets (writesOf j)

/-- The memory after an operation; unchanged by one that does not complete. -/
def memoryAfter (native : NativeWidth) (m : Memory) (i : Instr) : Memory :=
  match exec i ⟨m, [], .none, native⟩ with
  | .next t => t.mem
  | .fault _ => m
  | .refused _ => m

/-- The memory after the operation on the ports of a request. A request that holds no operation touches nothing. -/
def memoryAfterRequest (native : NativeWidth) (m : Memory) (r : Request) : Memory :=
  match decode native r.ports with
  | .ok j => memoryAfter native m j
  | .error _ => m

/-- R55: the operation `i`, started in `m`, conflicts with one of these requests, the first of which starts in `m'` and each
other in the memory that those before it leave. What `i` itself writes makes no difference before the first conflict. -/
def conflictsWithAny (native : NativeWidth) (m : Memory) (i : Instr) (m' : Memory) : List Request → Bool
  | [] => false
  | r :: rest =>
    (match decode native r.ports with
      | .ok j => conflicts native m i m' j
      | .error _ => false)
    || conflictsWithAny native m i (memoryAfterRequest native m' r) rest

end Sys2Proof.Machine
end

