-- ==== Sys2Proof/Machine/Step.lean ====
section
/-! DEFINITION. One step: the oldest operation the environment has presented runs, atomically (spec/00_scope.md R10,
spec/10_state.md R32, spec/20_memory.md R50). -/

namespace Sys2Proof.Machine

/-- Why the ports hold no operation, as a refusal of the step. -/
def refusalOf : Reject → Refusal
  | .reservedOpsel => .reservedOpsel
  | .valueTooWide => .valueTooWide

/-- R32: with no operation presented the block does nothing (log 5). Otherwise the oldest request is decoded (R72, R73),
refused if it overlaps in time and in its bytes with one that starts before it ends (R55), and else run alone (R53). -/
def step (s : State) : Host.Outcome State Fault Refusal :=
  match s.queue with
  | [] => .next s
  | r :: rest =>
    match decode s.native r.ports with
    | .error e => .refused (refusalOf e)
    | .ok i =>
      if conflictsWithAny s.native s.mem i s.mem (rest.take r.overlap) then .refused .aliasedBuffer
      else exec i (s.withQueue rest)

/-- The environment presents one operation, which starts next and overlaps no other, with this operation-select code and
operand ports of zeros (log 5, log 9). -/
def State.withFetchWord (s : State) (_nbits w : Nat) : State :=
  s.withQueue (⟨Ports.zeros (BitVec.ofNat 4 w), 0⟩ :: s.queue)

end Sys2Proof.Machine
end

