-- ==== Sys2Proof/Safety.lean ====
section
/-! DEFINITION. The terms claims are stated in: numbers and their canonical bytes (spec/30_encoding.md R60 to R65), runs of
bytes in memory, the closed form of the decoder (spec/42_decoder.md R129), and what counts as a safe state. Nothing here is
used by the machine. -/

namespace Sys2Proof.Machine

/-! ### The canonical encoding of a number, without the network -/

/-- R62: bits 7i + 6 down to 7i of x. -/
def groupOf (x i : Nat) : Nat := x / 2 ^ (7 * i) % 128

/-- R88, glossary: significant bits, at least 1 even for zero. -/
def significantBits (x : Nat) : Nat := if x = 0 then 1 else Nat.log2 x + 1

/-- R102: max(1, ceil(significant bits / 7)). -/
def lenOf (x : Nat) : Nat := max 1 ((significantBits x + 6) / 7)

/-- R61 to R63: byte i of the canonical encoding of x, with the continuation bit in every byte but the last. -/
def encodedByte (x i : Nat) : Nat := if i + 1 = lenOf x then groupOf x i else groupOf x i + 128

/-! ### Bytes in the caller's memory -/

/-- The n bytes from an address on. -/
def bytesAt (m : Memory) (base : Nat) : Nat → List Byte
  | 0 => []
  | n + 1 => m.read base :: bytesAt m (base + 1) n

/-- The byte at this index of a view is a continuation byte. -/
def Memory.continuesAt (m : Memory) (view : InView) (i : Nat) : Prop := 128 ≤ (m.read (view.base + i)).toNat

/-- The byte at this index of a view is a terminal byte. -/
def Memory.terminatesAt (m : Memory) (view : InView) (i : Nat) : Prop := (m.read (view.base + i)).toNat < 128

/-- R65: the sum of the first k groups from an address on, each at its place. -/
def groupSum (m : Memory) (base : Nat) : Nat → Nat
  | 0 => 0
  | k + 1 => groupSum m base k + (m.read (base + k)).toNat % 128 * 2 ^ (7 * k)

/-- The memory holds the canonical encoding of x from an address on. -/
def Memory.holdsEncoding (m : Memory) (base x : Nat) : Prop :=
  ∀ i, i < lenOf x → (m.read (base + i)).toNat = encodedByte x i

/-- R70: the terminal byte of a decodable sequence of `consumed` bytes carries no bits beyond the width. -/
def noExcessBits (W : Width) (m : Memory) (view : InView) (consumed : Nat) : Prop :=
  consumed = maxLen W → (m.read (view.base + (consumed - 1))).toNat % 128 < 2 ^ (W.bits - 7 * maxGroups W)

/-! ### The outcomes of the two families -/

/-- R101, R105: the outcome of encoding the number x to `obuf` in the state s. It completes, returns the length, the
canonical bytes stand from `obuf` on, every other byte of memory and every other field is unchanged. -/
def Encodes (x obuf : Nat) (s : State) (o : Host.Outcome State Fault Refusal) : Prop :=
  ∃ t, o = .next t ∧ t.response = .len (lenOf x) ∧ t.mem.holdsEncoding obuf x ∧
    (∀ a, ¬ (obuf ≤ a ∧ a < obuf + lenOf x) → t.mem.read a = s.mem.read a) ∧
    t.mem.fill = s.mem.fill ∧ t.queue = s.queue ∧ t.native = s.native

/-- R131, R157: the outcome of a decode that returns r in the state s. It completes; nothing but the response changes. -/
def Returns (W : Width) (r : DecodeResult W.bits) (s : State) (o : Host.Outcome State Fault Refusal) : Prop :=
  o = .next { s with response := .result W r }

/-- R129: with m = min(n, L), the least t < m whose byte is terminal. -/
def firstTerminal (m : Memory) (view : InView) (bound : Nat) : Option Nat :=
  (List.range (min view.len bound)).find? (fun i => decide ((m.read (view.base + i)).toNat < 128))

/-- R129: the closed form of the decoder, L = ceil(W/7). -/
def closedForm (W : Width) (m : Memory) (view : InView) : DecodeResult W.bits :=
  match firstTerminal m view ((W.bits + 6) / 7) with
  | some t => .ok (BitVec.ofNat W.bits (groupSum m view.base (t + 1))) (t + 1)
  | none => if (W.bits + 6) / 7 ≤ view.len then .err .overflow else .err .insufficient

/-- The outcome of an encode that returns exactly these bytes: it completes, LEN is their number, and they stand from
`obuf` on. -/
def EncodesBytes (bytes : List Byte) (obuf : Nat) (o : Host.Outcome State Fault Refusal) : Prop :=
  ∃ t, o = .next t ∧ t.response = .len bytes.length ∧ bytesAt t.mem obuf bytes.length = bytes

/-- A decode of exactly these bytes returns r and changes nothing but the response, in every state whose memory holds them
at the view. -/
def BytesDecodeTo (dec : InView → Instr) (bytes : List Byte) (W : Width) (r : DecodeResult W.bits) : Prop :=
  ∀ s base, bytesAt s.mem base bytes.length = bytes → Returns W r s (exec (dec ⟨base, bytes.length⟩) s)

/-! ### The operations by width -/

/-- ENC8 to ENC128 by width (R80). -/
def encOf : (W : Width) → (obuf : Nat) → BitVec W.bits → Instr
  | .w8, obuf, v => .enc8 obuf v
  | .w16, obuf, v => .enc16 obuf v
  | .w32, obuf, v => .enc32 obuf v
  | .w64, obuf, v => .enc64 obuf v
  | .w128, obuf, v => .enc128 obuf v

/-- DEC8 to DEC128 by width (R80). -/
def decOf : Width → InView → Instr
  | .w8, view => .dec8 view
  | .w16, view => .dec16 view
  | .w32, view => .dec32 view
  | .w64, view => .dec64 view
  | .w128, view => .dec128 view

/-- ENCN with an operand of NATIVE_W bits (R111). -/
def encNativeOf : (n : NativeWidth) → (obuf : Nat) → BitVec n.width.bits → Instr
  | .n32, obuf, v => .encN obuf (.n32 v)
  | .n64, obuf, v => .encN obuf (.n64 v)

/-! ### Safe states -/

/-- The invariant of the machine: the caller's memory is in its canonical form. -/
def StateInv (s : State) : Prop := s.mem.wf = true

/-- A state is safe when a step from it does not fault. -/
def Safe (s : State) : Prop := ∀ f, step s ≠ .fault f

end Sys2Proof.Machine
end

