-- ==== Sys2Proof/Certificates/Slice0/Obligations.lean ====
section
/-! DEFINITION. The statements about the machine, by the numbered rules of spec/. Each docstring names its rule, or says that
it rests on a choice of the model and names the log entry. -/

open Sys2Proof Sys2Proof.Machine

/-! ### The operation-select code -/

/-- R72 (the spec's decision D5, log 9), the whole table: each of the twelve codes gives its operation with the operands on
its ports, and the four codes left over are reserved. -/
def Obligations.OpselTableSelectsTheOperations : Prop :=
  ∀ (n : NativeWidth) (value : BitVec 128) (obuf ibuf ilen : Nat),
    (∀ v : BitVec 8, decode n ⟨0b0000#4, v.setWidth 128, obuf, ibuf, ilen⟩ = .ok (.enc8 obuf v)) ∧
    (∀ v : BitVec 16, decode n ⟨0b0001#4, v.setWidth 128, obuf, ibuf, ilen⟩ = .ok (.enc16 obuf v)) ∧
    (∀ v : BitVec 32, decode n ⟨0b0010#4, v.setWidth 128, obuf, ibuf, ilen⟩ = .ok (.enc32 obuf v)) ∧
    (∀ v : BitVec 64, decode n ⟨0b0011#4, v.setWidth 128, obuf, ibuf, ilen⟩ = .ok (.enc64 obuf v)) ∧
    (∀ v : BitVec 128, decode n ⟨0b0100#4, v.setWidth 128, obuf, ibuf, ilen⟩ = .ok (.enc128 obuf v)) ∧
    (∀ v : BitVec 32, decode .n32 ⟨0b0101#4, v.setWidth 128, obuf, ibuf, ilen⟩ = .ok (.encN obuf (.n32 v))) ∧
    (∀ v : BitVec 64, decode .n64 ⟨0b0101#4, v.setWidth 128, obuf, ibuf, ilen⟩ = .ok (.encN obuf (.n64 v))) ∧
    decode n ⟨0b1000#4, value, obuf, ibuf, ilen⟩ = .ok (.dec8 ⟨ibuf, ilen⟩) ∧
    decode n ⟨0b1001#4, value, obuf, ibuf, ilen⟩ = .ok (.dec16 ⟨ibuf, ilen⟩) ∧
    decode n ⟨0b1010#4, value, obuf, ibuf, ilen⟩ = .ok (.dec32 ⟨ibuf, ilen⟩) ∧
    decode n ⟨0b1011#4, value, obuf, ibuf, ilen⟩ = .ok (.dec64 ⟨ibuf, ilen⟩) ∧
    decode n ⟨0b1100#4, value, obuf, ibuf, ilen⟩ = .ok (.dec128 ⟨ibuf, ilen⟩) ∧
    decode n ⟨0b1101#4, value, obuf, ibuf, ilen⟩ = .ok (.decN ⟨ibuf, ilen⟩) ∧
    (∀ code ∈ [0b0110#4, 0b0111#4, 0b1110#4, 0b1111#4],
      decode n ⟨code, value, obuf, ibuf, ilen⟩ = .error .reservedOpsel)

/-- R73 (the spec's decision D15): the codes with WSEL = 6 or 7, and no others, are refused as reserved. -/
def Obligations.ReservedOpselIsRefused : Prop :=
  ∀ (s : State) (r : Request) (rest : List Request), s.queue = r :: rest →
    (step s = .refused .reservedOpsel ↔ r.ports.opsel.toNat % 8 = 6 ∨ r.ports.opsel.toNat % 8 = 7)

/-- Decode and encode agree, for every well-formed operation, every operand value and both settings of NATIVE_W. -/
def Obligations.DecodeOfEncodeGivesTheOperationBack : Prop :=
  ∀ (n : NativeWidth) (i : Instr), i.wellFormed n = true → decode n (encode i) = .ok i

/-- What is decoded is well formed and carries the code and the operands that stand on the ports: encoding it again drives
the same OPSEL and the same operand ports. That all 128 bits of VALUE come back, none dropped, is the model's choice (log 7);
R72 and R76 give VALUE the W bits of its operation only. -/
def Obligations.DecodedOperationCarriesItsPorts : Prop :=
  ∀ (n : NativeWidth) (p : Ports) (i : Instr), decode n p = .ok i →
    i.wellFormed n = true ∧ (encode i).opsel = p.opsel ∧
      (p.isDecode = false → (encode i).obuf = p.obuf ∧ (encode i).value = p.value) ∧
      (p.isDecode = true → (encode i).ibuf = p.ibuf ∧ (encode i).ilen = p.ilen)

/-- Exactly the well-formed ports hold an operation; VALUE of more than W bits is the model's own rejection (log 7). -/
def Obligations.DecodeAcceptsExactlyWellFormedPorts : Prop :=
  ∀ (n : NativeWidth) (p : Ports),
    ((∃ i, decode n p = .ok i) ↔ p.wellFormed n = true) ∧
    (decode n p = .error .reservedOpsel ↔ wselWidth n p.wsel = none) ∧
    (decode n p = .error .valueTooWide ↔
      ∃ W, wselWidth n p.wsel = some W ∧ p.isDecode = false ∧ 2 ^ W.bits ≤ p.value.toNat)

/-! ### The step -/

/-- A step runs the operation on the ports of the oldest request, with that request taken out of the queue, unless it is
refused for what it overlaps (the queue is the model's choice, log 5, and so is the overlap, log 6). -/
def Obligations.StepRunsTheDecodedOperation : Prop :=
  ∀ (s : State) (r : Request) (rest : List Request) (i : Instr), s.queue = r :: rest →
    decode s.native r.ports = .ok i → conflictsWithAny s.native s.mem i s.mem (rest.take r.overlap) = false →
    step s = exec i { s with queue := rest }

/-- With no operation presented a step changes nothing (the model's choice, log 5). -/
def Obligations.StepIdlesWithNothingPresented : Prop :=
  ∀ s : State, s.queue = [] → step s = .next s

/-- The operation is refused exactly when a request that starts before it ends holds an operation that writes a byte it
writes or reads, or reads a byte it writes, a decode reading as far as the memory it starts in makes it (by footprint: the
model's reading of R55, log 6). -/
def Obligations.OverlapOnTheSameBytesIsRefused : Prop :=
  ∀ (s : State) (r : Request) (rest : List Request) (i : Instr), s.queue = r :: rest →
    decode s.native r.ports = .ok i →
    (step s = .refused .aliasedBuffer ↔
      ∃ before q after, rest.take r.overlap = before ++ q :: after ∧ ∃ j, decode s.native q.ports = .ok j ∧ ∃ a,
        let m := before.foldl (memoryAfterRequest s.native) s.mem
        ((writesOf i).has a = true ∧ ((writesOf j).has a = true ∨ (readsOf s.native m j).has a = true)) ∨
        ((readsOf s.native s.mem i).has a = true ∧ (writesOf j).has a = true))

/-- No step faults, and one that does not complete is refused by one of three names (R104, R129, R139, R164; log 7). -/
def Obligations.StepCompletesOrIsRefusedByName : Prop :=
  ∀ s : State, Safe s ∧
    ((∃ t, step s = .next t) ∨ step s = .refused .reservedOpsel ∨ step s = .refused .valueTooWide ∨
      step s = .refused .aliasedBuffer)

/-- A request whose ports hold an operation and that overlaps no other completes, whatever the memory holds (R104, R129,
R174). That it leaves the requests behind it is the model's queue (log 5), and that it overlaps no other is said by the
model's overlap count (log 6): both are the model's choice. -/
def Obligations.LoneWellFormedRequestCompletes : Prop :=
  ∀ (s : State) (r : Request) (rest : List Request), s.queue = r :: rest → r.overlap = 0 →
    r.ports.wellFormed s.native = true → ∃ t, step s = .next t ∧ t.queue = rest

/-! ### The shift-and-mask network -/

/-- R6 and the numerals of R7; and, by inference or decision of the spec, that MAXGROUPS_W = MAXLEN_W − 1 (R7), that the
largest shift amount stays below the width (R91) and that the buffer holds MAXLEN_W bytes (R8, D3, log 4). -/
def Obligations.WidthConstants : Prop :=
  (maxLen .w8 = 2 ∧ maxLen .w16 = 3 ∧ maxLen .w32 = 5 ∧ maxLen .w64 = 10 ∧ maxLen .w128 = 19) ∧
  (maxGroups .w8 = 1 ∧ maxGroups .w16 = 2 ∧ maxGroups .w32 = 4 ∧ maxGroups .w64 = 9 ∧ maxGroups .w128 = 18) ∧
  ∀ W : Width, maxLen W = (W.bits + 6) / 7 ∧ maxGroups W = maxLen W - 1 ∧ 7 * maxGroups W < W.bits ∧
    maxLen W ≤ bufCap W

/-- R84, and R83 (from general knowledge, GK1, log 14): the right shift is a division, the left shift a multiplication kept
to W bits, for shifts below the width. -/
def Obligations.ShiftsAreLogicalAndTruncating : Prop :=
  (∀ (w : Nat) (v : BitVec w) (s : Nat), s < w →
    (shrW v s).toNat = v.toNat / 2 ^ s ∧ (shlW v s).toNat = v.toNat * 2 ^ s % 2 ^ w) ∧
  shrW 300#32 7 = 2#32 ∧ shlW 0x7F#8 7 = 0x80#8

/-- R88, and R87 (from general knowledge, GK1; D17; log 14): leading zeros and significant bits, at every width and value,
zero included. -/
def Obligations.LeadingZerosAndSignificantBits : Prop :=
  (∀ (w : Nat) (v : BitVec w),
    (v.toNat = 0 → clzW v = w) ∧ (v.toNat ≠ 0 → clzW v = w - 1 - Nat.log2 v.toNat) ∧
    sigBits v = max 1 (w - clzW v) ∧ (1 ≤ w → 1 ≤ sigBits v ∧ sigBits v ≤ w) ∧
    (v.toNat = 0 → sigBits v = 1) ∧ (1 ≤ v.toNat → sigBits v = Nat.log2 v.toNat + 1)) ∧
  clzW 0xFF#8 = 0 ∧ clzW 0x01#8 = 7 ∧ clzW 300#32 = 23 ∧ clzW 0#16 = 16 ∧
  sigBits 0#8 = 1 ∧ sigBits 1#8 = 1 ∧ sigBits 127#8 = 7 ∧ sigBits 128#8 = 8 ∧ sigBits 300#32 = 9 ∧
  sigBits 0x8000000000000000#64 = 64

/-- R89: b significant bits need k groups exactly when 7(k − 1) < b ≤ 7k; 1 to MAXLEN_W for the bits of a value. -/
def Obligations.GroupCountIsCeilingOfSevenths : Prop :=
  (∀ b : Nat, groupCount b = max 1 ((b + 6) / 7)) ∧
  (∀ b k : Nat, 1 ≤ b → 1 ≤ k → (groupCount b = k ↔ 7 * (k - 1) < b ∧ b ≤ 7 * k)) ∧
  (∀ (W : Width) (b : Nat), 1 ≤ b → b ≤ W.bits → 1 ≤ groupCount b ∧ groupCount b ≤ maxLen W) ∧
  groupCount 1 = 1 ∧ groupCount 7 = 1 ∧ groupCount 8 = 2 ∧ groupCount 14 = 2 ∧ groupCount 15 = 3 ∧
  groupCount 32 = 5 ∧ groupCount 64 = 10 ∧ groupCount 128 = 19

/-- R90, R92, R93: the lanes and the byte helpers as arithmetic. -/
def Obligations.GroupLanesAndByteHelpers : Prop :=
  (∀ (W : Width) (v : BitVec W.bits) (i : Nat), i ≤ maxGroups W →
    (extract7 v i).toNat = v.toNat / 2 ^ (7 * i) % 128) ∧
  (∀ (W : Width) (num : BitVec W.bits) (b : Byte) (i : Nat), i ≤ maxGroups W →
    (insert7 num b i).toNat = num.toNat ||| (b.toNat % 128 * 2 ^ (7 * i) % 2 ^ W.bits)) ∧
  (∀ g : BitVec 7, (setC g).toNat = g.toNat + 128) ∧
  (∀ b : Byte, (clrC b).toNat = b.toNat % 128 ∧ (isLast b = true ↔ b.toNat < 128)) ∧
  extract7 300#32 0 = 0x2C#7 ∧ extract7 300#32 1 = 0x02#7 ∧ extract7 0xFF#8 1 = 0x01#7 ∧
  extract7 0xFFFFFFFFFFFFFFFF#64 9 = 0x01#7 ∧
  insert7 0x2C#32 0x02#8 1 = 0x12C#32 ∧ insert7 0x7F#8 0x7F#8 1 = 0xFF#8 ∧ insert7 0x00#8 0x02#8 1 = 0x00#8 ∧
  setC 0x2C#7 = 0xAC#8 ∧ clrC 0x82#8 = 0x02#8 ∧ isLast 0x02#8 = true ∧ isLast 0xAC#8 = false

/-- R95 (the spec's own inference): the groups tile the value, the groups above the significant bits are zero, the highest
counted one is not. -/
def Obligations.GroupsTileTheValue : Prop :=
  ∀ (W : Width) (v : BitVec W.bits),
    (∑ i ∈ Finset.range (maxGroups W + 1), (extract7 v i).toNat * 2 ^ (7 * i)) % 2 ^ W.bits = v.toNat ∧
    (∀ i, groupCount (sigBits v) ≤ i → extract7 v i = 0#7) ∧
    (1 ≤ v.toNat → extract7 v (groupCount (sigBits v) - 1) ≠ 0#7)

/-! ### The encoder -/

/-- R101, for each of the six operations: it answers a next state; LEN is the length, the canonical bytes stand in OBUF,
every other byte of memory and every other field is unchanged. -/
def Obligations.EncoderWritesTheCanonicalBytes : Prop :=
  ∀ (s : State) (obuf : Nat),
    (∀ v : BitVec 8, Encodes v.toNat obuf s (exec (.enc8 obuf v) s)) ∧
    (∀ v : BitVec 16, Encodes v.toNat obuf s (exec (.enc16 obuf v) s)) ∧
    (∀ v : BitVec 32, Encodes v.toNat obuf s (exec (.enc32 obuf v) s)) ∧
    (∀ v : BitVec 64, Encodes v.toNat obuf s (exec (.enc64 obuf v) s)) ∧
    (∀ v : BitVec 128, Encodes v.toNat obuf s (exec (.enc128 obuf v) s)) ∧
    (s.native = .n32 → ∀ v : BitVec 32, Encodes v.toNat obuf s (exec (.encN obuf (.n32 v)) s)) ∧
    (s.native = .n64 → ∀ v : BitVec 64, Encodes v.toNat obuf s (exec (.encN obuf (.n64 v)) s))

/-- R102: the length, by classes of values too (that form is the spec's own inference); and among all byte sequences with
the layout of R62 and R63 that carry the value the output is the shortest and the only one of its length. -/
def Obligations.EncodingIsTheShortestAndUnique : Prop :=
  ∀ (W : Width) (obuf : Nat) (v : BitVec W.bits) (s : State),
    ∃ t len, exec (encOf W obuf v) s = .next t ∧ t.response = .len len ∧
      len = max 1 ((significantBits v.toNat + 6) / 7) ∧ (len = 1 ↔ v.toNat < 2 ^ 7) ∧
      (∀ k, 2 ≤ k → k ≤ maxLen W → (len = k ↔ 2 ^ (7 * (k - 1)) ≤ v.toNat ∧ v.toNat < 2 ^ (7 * k))) ∧
      ∀ (m : Memory) (base k : Nat), 1 ≤ k → (∀ j, j + 1 < k → 128 ≤ (m.read (base + j)).toNat) →
        (m.read (base + (k - 1))).toNat < 128 → groupSum m base k = v.toNat →
        len ≤ k ∧ (k = len → ∀ i, i < len → m.read (base + i) = t.mem.read (obuf + i))

/-- R103: the last byte has its high bit clear, every other byte has it set. -/
def Obligations.OnlyTheLastByteEndsTheEncoding : Prop :=
  ∀ (W : Width) (obuf : Nat) (v : BitVec W.bits) (s : State),
    ∃ t len, exec (encOf W obuf v) s = .next t ∧ t.response = .len len ∧
      (∀ i, i + 1 < len → (t.mem.read (obuf + i)).getLsbD 7 = true) ∧
      (t.mem.read (obuf + (len - 1))).getLsbD 7 = false

/-- R104, for each of the six operations: every value is accepted, the operation completes, the length fits the buffer (the
last, against BUFCAP_W, is the spec's own inference; log 4). -/
def Obligations.EncoderNeverFails : Prop :=
  ∀ (s : State) (obuf : Nat),
    (∀ (W : Width) (v : BitVec W.bits), ∃ t len, exec (encOf W obuf v) s = .next t ∧ t.response = .len len ∧
      1 ≤ len ∧ len ≤ maxLen W ∧ len ≤ bufCap W) ∧
    (∀ v : BitVec s.native.width.bits, ∃ t len, exec (encNativeOf s.native obuf v) s = .next t ∧
      t.response = .len len ∧ 1 ≤ len ∧ len ≤ maxLen s.native.width ∧ len ≤ bufCap s.native.width)

/-- R105: no byte before OBUF, none at index len or beyond, and so (the spec's own inference) none at index MAXLEN_W or
beyond, is written; nothing is read from OBUF: over any other memory the same length and the same bytes result. -/
def Obligations.EncoderWritesOnlyItsOwnBytes : Prop :=
  ∀ (W : Width) (obuf : Nat) (v : BitVec W.bits) (s : State),
    ∃ t len, exec (encOf W obuf v) s = .next t ∧ t.response = .len len ∧ len ≤ maxLen W ∧
      (∀ a, a < obuf ∨ obuf + len ≤ a → t.mem.read a = s.mem.read a) ∧
      (∀ i, maxLen W ≤ i → t.mem.read (obuf + i) = s.mem.read (obuf + i)) ∧
      t.queue = s.queue ∧ t.native = s.native ∧
      ∀ s' : State, ∃ t', exec (encOf W obuf v) s' = .next t' ∧ t'.response = .len len ∧
        ∀ i, i < len → t'.mem.read (obuf + i) = t.mem.read (obuf + i)

/-- R112: length and bytes depend on the value alone, not on what the buffer held or on where it stands; encoding the
same value again leaves the buffer as after the first time. -/
def Obligations.EncoderIsAFunctionOfItsValue : Prop :=
  ∀ (W : Width) (obuf obuf' : Nat) (v : BitVec W.bits) (s s' : State),
    ∃ t t' t'' len, exec (encOf W obuf v) s = .next t ∧ exec (encOf W obuf' v) s' = .next t' ∧
      t.response = .len len ∧ t'.response = .len len ∧
      (∀ i, i < len → t.mem.read (obuf + i) = t'.mem.read (obuf' + i)) ∧
      exec (encOf W obuf v) t = .next t'' ∧ t''.response = .len len ∧ (∀ a, t''.mem.read a = t.mem.read a)

/-- R114 (the spec's own inference): different values never give the same bytes and no output is a prefix of another; the
same number gives the same bytes at every width that holds it. -/
def Obligations.EncodingsAreInjectiveAndPrefixFree : Prop :=
  (∀ (W : Width) (v v' : BitVec W.bits) (obuf obuf' : Nat) (s s' : State),
    ∃ t t' len', exec (encOf W obuf v) s = .next t ∧ exec (encOf W obuf' v') s' = .next t' ∧
      t'.response = .len len' ∧
      ((∀ i, i < len' → t.mem.read (obuf + i) = t'.mem.read (obuf' + i)) → v = v')) ∧
  (∀ (W W' : Width) (v : BitVec W.bits) (v' : BitVec W'.bits) (obuf obuf' : Nat) (s s' : State),
    v.toNat = v'.toNat → ∃ t t' len, exec (encOf W obuf v) s = .next t ∧ exec (encOf W' obuf' v') s' = .next t' ∧
      t.response = .len len ∧ t'.response = .len len ∧
      ∀ i, i < len → t.mem.read (obuf + i) = t'.mem.read (obuf' + i))

/-- R106: ENC8, its code, its effect, its lengths by value, its corner cases and worked example; the second byte, when there
is one, is value bit 7, so 0x01 (the spec's own inference). -/
def Obligations.Enc8LengthsAndCornerCases : Prop :=
  (∀ (n : NativeWidth) (obuf : Nat) (v : BitVec 8), decode n ⟨0b0000#4, v.setWidth 128, obuf, 0, 0⟩ = .ok (.enc8 obuf v)) ∧
  ∀ (s : State) (obuf : Nat),
    (∀ v : BitVec 8, Encodes v.toNat obuf s (exec (.enc8 obuf v) s)) ∧
    (∀ v : BitVec 8, ∃ t len, exec (.enc8 obuf v) s = .next t ∧ t.response = .len len ∧
      (v.toNat < 2 ^ 7 → len = 1) ∧
      (2 ^ 7 ≤ v.toNat → len = 2 ∧
        (t.mem.read (obuf + 1)).toNat = v.toNat / 2 ^ 7 ∧ 1 ≤ v.toNat / 2 ^ 7 ∧ v.toNat / 2 ^ 7 ≤ 1)) ∧
    EncodesBytes [0x00#8] obuf (exec (.enc8 obuf 0x00#8) s) ∧
    EncodesBytes [0x7F#8] obuf (exec (.enc8 obuf 0x7F#8) s) ∧
    EncodesBytes [0x80#8, 0x01#8] obuf (exec (.enc8 obuf 0x80#8) s) ∧
    EncodesBytes [0xFF#8, 0x01#8] obuf (exec (.enc8 obuf 0xFF#8) s)

/-- R107: ENC16, its code, its effect, its lengths by value, its corner cases and worked example; the third byte, when
present, is value bits 15:14, 0x01 to 0x03. -/
def Obligations.Enc16LengthsAndCornerCases : Prop :=
  (∀ (n : NativeWidth) (obuf : Nat) (v : BitVec 16), decode n ⟨0b0001#4, v.setWidth 128, obuf, 0, 0⟩ = .ok (.enc16 obuf v)) ∧
  ∀ (s : State) (obuf : Nat),
    (∀ v : BitVec 16, Encodes v.toNat obuf s (exec (.enc16 obuf v) s)) ∧
    (∀ v : BitVec 16, ∃ t len, exec (.enc16 obuf v) s = .next t ∧ t.response = .len len ∧
      (v.toNat < 2 ^ 7 → len = 1) ∧
      (∀ k, 2 ≤ k → k ≤ 2 → 2 ^ (7 * (k - 1)) ≤ v.toNat → v.toNat < 2 ^ (7 * k) → len = k) ∧
      (2 ^ 14 ≤ v.toNat → len = 3 ∧
        (t.mem.read (obuf + 2)).toNat = v.toNat / 2 ^ 14 ∧ 1 ≤ v.toNat / 2 ^ 14 ∧ v.toNat / 2 ^ 14 ≤ 3)) ∧
    EncodesBytes [0x00#8] obuf (exec (.enc16 obuf 0x0000#16) s) ∧
    EncodesBytes [0xFF#8, 0x7F#8] obuf (exec (.enc16 obuf 0x3FFF#16) s) ∧
    EncodesBytes [0x80#8, 0x80#8, 0x01#8] obuf (exec (.enc16 obuf 0x4000#16) s) ∧
    EncodesBytes [0xFF#8, 0xFF#8, 0x03#8] obuf (exec (.enc16 obuf 0xFFFF#16) s)

/-- R108: ENC32, its code, its effect, its lengths by value, its corner cases and worked example; the fifth byte, when
present, is value bits 31:28, 0x01 to 0x0F. -/
def Obligations.Enc32LengthsAndCornerCases : Prop :=
  (∀ (n : NativeWidth) (obuf : Nat) (v : BitVec 32), decode n ⟨0b0010#4, v.setWidth 128, obuf, 0, 0⟩ = .ok (.enc32 obuf v)) ∧
  ∀ (s : State) (obuf : Nat),
    (∀ v : BitVec 32, Encodes v.toNat obuf s (exec (.enc32 obuf v) s)) ∧
    (∀ v : BitVec 32, ∃ t len, exec (.enc32 obuf v) s = .next t ∧ t.response = .len len ∧
      (v.toNat < 2 ^ 7 → len = 1) ∧
      (∀ k, 2 ≤ k → k ≤ 4 → 2 ^ (7 * (k - 1)) ≤ v.toNat → v.toNat < 2 ^ (7 * k) → len = k) ∧
      (2 ^ 28 ≤ v.toNat → len = 5 ∧
        (t.mem.read (obuf + 4)).toNat = v.toNat / 2 ^ 28 ∧ 1 ≤ v.toNat / 2 ^ 28 ∧ v.toNat / 2 ^ 28 ≤ 15)) ∧
    EncodesBytes [0x00#8] obuf (exec (.enc32 obuf 0#32) s) ∧
    EncodesBytes [0xFF#8, 0xFF#8, 0xFF#8, 0x7F#8] obuf (exec (.enc32 obuf 0x0FFFFFFF#32) s) ∧
    EncodesBytes [0x80#8, 0x80#8, 0x80#8, 0x80#8, 0x01#8] obuf (exec (.enc32 obuf 0x10000000#32) s) ∧
    EncodesBytes [0xFF#8, 0xFF#8, 0xFF#8, 0xFF#8, 0x0F#8] obuf (exec (.enc32 obuf 0xFFFFFFFF#32) s) ∧
    EncodesBytes [0xAC#8, 0x02#8] obuf (exec (.enc32 obuf 300#32) s)

/-- R109: ENC64, its code, its effect, its lengths by value, its corner cases and worked example; the tenth byte, when
present, is value bit 63, always 0x01. -/
def Obligations.Enc64LengthsAndCornerCases : Prop :=
  (∀ (n : NativeWidth) (obuf : Nat) (v : BitVec 64), decode n ⟨0b0011#4, v.setWidth 128, obuf, 0, 0⟩ = .ok (.enc64 obuf v)) ∧
  ∀ (s : State) (obuf : Nat),
    (∀ v : BitVec 64, Encodes v.toNat obuf s (exec (.enc64 obuf v) s)) ∧
    (∀ v : BitVec 64, ∃ t len, exec (.enc64 obuf v) s = .next t ∧ t.response = .len len ∧
      (v.toNat < 2 ^ 7 → len = 1) ∧
      (∀ k, 2 ≤ k → k ≤ 9 → 2 ^ (7 * (k - 1)) ≤ v.toNat → v.toNat < 2 ^ (7 * k) → len = k) ∧
      (2 ^ 63 ≤ v.toNat → len = 10 ∧
        (t.mem.read (obuf + 9)).toNat = v.toNat / 2 ^ 63 ∧ 1 ≤ v.toNat / 2 ^ 63 ∧ v.toNat / 2 ^ 63 ≤ 1)) ∧
    EncodesBytes [0x00#8] obuf (exec (.enc64 obuf 0#64) s) ∧
    EncodesBytes (List.replicate 8 0xFF#8 ++ [0x7F#8]) obuf (exec (.enc64 obuf 0x7FFFFFFFFFFFFFFF#64) s) ∧
    EncodesBytes (List.replicate 9 0x80#8 ++ [0x01#8]) obuf (exec (.enc64 obuf 0x8000000000000000#64) s) ∧
    EncodesBytes (List.replicate 9 0xFF#8 ++ [0x01#8]) obuf (exec (.enc64 obuf 0xFFFFFFFFFFFFFFFF#64) s)

/-- R110: ENC128, its code, its effect, its lengths by value, its corner cases and worked example; the nineteenth byte, when
present, is value bits 127:126, 0x01 to 0x03. -/
def Obligations.Enc128LengthsAndCornerCases : Prop :=
  (∀ (n : NativeWidth) (obuf : Nat) (v : BitVec 128), decode n ⟨0b0100#4, v.setWidth 128, obuf, 0, 0⟩ = .ok (.enc128 obuf v)) ∧
  ∀ (s : State) (obuf : Nat),
    (∀ v : BitVec 128, Encodes v.toNat obuf s (exec (.enc128 obuf v) s)) ∧
    (∀ v : BitVec 128, ∃ t len, exec (.enc128 obuf v) s = .next t ∧ t.response = .len len ∧
      (v.toNat < 2 ^ 7 → len = 1) ∧
      (∀ k, 2 ≤ k → k ≤ 18 → 2 ^ (7 * (k - 1)) ≤ v.toNat → v.toNat < 2 ^ (7 * k) → len = k) ∧
      (2 ^ 126 ≤ v.toNat → len = 19 ∧
        (t.mem.read (obuf + 18)).toNat = v.toNat / 2 ^ 126 ∧ 1 ≤ v.toNat / 2 ^ 126 ∧ v.toNat / 2 ^ 126 ≤ 3)) ∧
    EncodesBytes [0x00#8] obuf (exec (.enc128 obuf 0#128) s) ∧
    EncodesBytes (List.replicate 17 0xFF#8 ++ [0x7F#8]) obuf (exec (.enc128 obuf 0x3FFFFFFFFFFFFFFFFFFFFFFFFFFFFFFF#128) s) ∧
    EncodesBytes (List.replicate 18 0x80#8 ++ [0x01#8]) obuf (exec (.enc128 obuf 0x40000000000000000000000000000000#128) s) ∧
    EncodesBytes (List.replicate 18 0xFF#8 ++ [0x03#8]) obuf (exec (.enc128 obuf 0xFFFFFFFFFFFFFFFFFFFFFFFFFFFFFFFF#128) s) ∧
    EncodesBytes (List.replicate 18 0x80#8 ++ [0x02#8]) obuf (exec (.enc128 obuf 0x80000000000000000000000000000000#128) s)

/-- R111: ENCN is ENC32 or ENC64 as NATIVE_W says, with code 0101; 300 gives the same bytes under both; 5 or 10 bytes are
the most it writes, and the greatest value needs them. -/
def Obligations.NativeEncoderIsTheSelectedWidth : Prop :=
  ∀ (s : State) (obuf : Nat),
    (s.native = .n32 → ∀ v : BitVec 32, exec (.encN obuf (.n32 v)) s = exec (.enc32 obuf v) s ∧
      decode s.native ⟨0b0101#4, v.setWidth 128, obuf, 0, 0⟩ = .ok (.encN obuf (.n32 v))) ∧
    (s.native = .n64 → ∀ v : BitVec 64, exec (.encN obuf (.n64 v)) s = exec (.enc64 obuf v) s ∧
      decode s.native ⟨0b0101#4, v.setWidth 128, obuf, 0, 0⟩ = .ok (.encN obuf (.n64 v))) ∧
    EncodesBytes [0xAC#8, 0x02#8] obuf (exec (encNativeOf s.native obuf (300 : BitVec s.native.width.bits)) s) ∧
    (∀ v : BitVec s.native.width.bits, ∃ t len, exec (encNativeOf s.native obuf v) s = .next t ∧ t.response = .len len ∧
      (s.native = .n32 → len ≤ 5) ∧ (s.native = .n64 → len ≤ 10)) ∧
    ∃ t, exec (encNativeOf s.native obuf (BitVec.allOnes s.native.width.bits)) s = .next t ∧
      t.response = .len (maxLen s.native.width)

/-- ENCN is refused exactly on an operand that is not of NATIVE_W bits, and no step reaches that (the model's choice,
log 8). -/
def Obligations.NativeOperandOfTheOtherWidthIsUnreachable : Prop :=
  (∀ (s : State) (obuf : Nat) (v : NativeValue),
    exec (.encN obuf v) s = .refused .nativeWidthMismatch ↔ v.native ≠ s.native) ∧
  ∀ s : State, step s ≠ .refused .nativeWidthMismatch

/-! ### The decoder -/

/-- R129 (the spec's own inference from R121), for each of the six operations: it answers a next state in which the response
is the closed form and nothing else has changed. -/
def Obligations.DecoderReturnsTheClosedForm : Prop :=
  ∀ (s : State) (view : InView),
    Returns .w8 (closedForm .w8 s.mem view) s (exec (.dec8 view) s) ∧
    Returns .w16 (closedForm .w16 s.mem view) s (exec (.dec16 view) s) ∧
    Returns .w32 (closedForm .w32 s.mem view) s (exec (.dec32 view) s) ∧
    Returns .w64 (closedForm .w64 s.mem view) s (exec (.dec64 view) s) ∧
    Returns .w128 (closedForm .w128 s.mem view) s (exec (.dec128 view) s) ∧
    Returns s.native.width (closedForm s.native.width s.mem view) s (exec (.decN view) s)

/-- R121, R122: the loop, one iteration at a time, with the tests in the order exhausted, terminal, group limit. -/
def Obligations.DecoderLoopTakesItsTestsInOrder : Prop :=
  ∀ (W : Width) (view : InView) (s : State),
    Returns W (decodeLoop s.mem view (maxGroups W - 0) 0 (0 : BitVec W.bits)) s (exec (decOf W view) s) ∧
    ∀ (i : Nat) (num : BitVec W.bits), i ≤ maxGroups W →
      decodeLoop s.mem view (maxGroups W - i) i num =
        if view.len ≤ i then .err .insufficient
        else if (s.mem.read (view.base + i)).getLsbD 7 = false then
          .ok (insert7 num (s.mem.read (view.base + i)) i) (i + 1)
        else if i = maxGroups W then .err .overflow
        else decodeLoop s.mem view (maxGroups W - (i + 1)) (i + 1) (insert7 num (s.mem.read (view.base + i)) i)

/-- R127 (the bound is the spec's own inference): Insufficient exactly when n < MAXLEN_W and every one of the n bytes is a
continuation byte. -/
def Obligations.InsufficientExactlyWhenTheInputRunsOut : Prop :=
  ∀ (W : Width) (view : InView) (s : State),
    (Returns W (.err .insufficient) s (exec (decOf W view) s) ↔
      view.len < maxLen W ∧ ∀ i, i < view.len → s.mem.continuesAt view i) ∧
    (Returns s.native.width (.err .insufficient) s (exec (.decN view) s) ↔
      view.len < maxLen s.native.width ∧ ∀ i, i < view.len → s.mem.continuesAt view i)

/-- R128 (the bound is the spec's own inference; conflict C2): Overflow exactly when n ≥ MAXLEN_W and bytes 0 to MAXLEN_W −
1 are all continuation bytes, a terminal byte after them or not. -/
def Obligations.OverflowExactlyWhenNoByteUpToTheLimitEnds : Prop :=
  (∀ (W : Width) (view : InView) (s : State),
    (Returns W (.err .overflow) s (exec (decOf W view) s) ↔
      maxLen W ≤ view.len ∧ ∀ i, i < maxLen W → s.mem.continuesAt view i) ∧
    (Returns s.native.width (.err .overflow) s (exec (.decN view) s) ↔
      maxLen s.native.width ≤ view.len ∧ ∀ i, i < maxLen s.native.width → s.mem.continuesAt view i)) ∧
  BytesDecodeTo .dec8 [0x80#8, 0x80#8, 0x00#8] .w8 (.err .overflow) ∧
  BytesDecodeTo .dec8 [0xFF#8, 0x01#8] .w8 (.ok 255 2) ∧
  BytesDecodeTo .dec8 [0xFF#8, 0x81#8] .w8 (.err .overflow)

/-- R124: Ok exactly when consumed − 1 is the least index of a terminal byte, within the input and MAXLEN_W, and the value
is the sum of the groups up to it, kept to W bits. -/
def Obligations.SuccessExactlyAtTheFirstTerminalByte : Prop :=
  ∀ (W : Width) (view : InView) (s : State) (v : BitVec W.bits) (consumed : Nat),
    Returns W (.ok v consumed) s (exec (decOf W view) s) ↔
      1 ≤ consumed ∧ consumed ≤ min view.len (maxLen W) ∧ s.mem.terminatesAt view (consumed - 1) ∧
      (∀ i, i < consumed - 1 → s.mem.continuesAt view i) ∧
      v.toNat = groupSum s.mem view.base consumed % 2 ^ W.bits

/-- R125: with the terminal byte at the last permissible index, the bits of its group that do not fit are dropped and the
result is Ok; with a continuation byte there, whatever its group, the result is Overflow. -/
def Obligations.ExcessBitsAreDroppedNotReported : Prop :=
  (∀ (W : Width) (view : InView) (s : State), maxLen W ≤ view.len →
    (∀ i, i < maxGroups W → s.mem.continuesAt view i) →
    (s.mem.terminatesAt view (maxGroups W) →
      ∃ v, Returns W (.ok v (maxLen W)) s (exec (decOf W view) s) ∧
        v.toNat = groupSum s.mem view.base (maxGroups W) +
          (s.mem.read (view.base + maxGroups W)).toNat % 2 ^ (W.bits - 7 * maxGroups W) * 2 ^ (7 * maxGroups W)) ∧
    (s.mem.continuesAt view (maxGroups W) → Returns W (.err .overflow) s (exec (decOf W view) s))) ∧
  BytesDecodeTo .dec8 [0xFF#8, 0x7F#8] .w8 (.ok 0xFF 2)

/-- R126 (the general form is the spec's own inference): an encoding followed by anything decodes to its value and length;
and in any input the bytes that are not examined have no influence. -/
def Obligations.TrailingBytesAreIgnored : Prop :=
  (∀ (W : Width) (view : InView) (s : State) (v : BitVec W.bits), s.mem.holdsEncoding view.base v.toNat →
    lenOf v.toNat ≤ view.len → Returns W (.ok v (lenOf v.toNat)) s (exec (decOf W view) s)) ∧
  (∀ (W : Width) (view : InView) (s s' : State) (r : DecodeResult W.bits),
    Returns W r s (exec (decOf W view) s) →
    (∀ i, i < examined W s.mem view → s'.mem.read (view.base + i) = s.mem.read (view.base + i)) →
    Returns W r s' (exec (decOf W view) s'))

/-- R130 (the spec's own inference): a sequence longer than the canonical one is accepted: the encoding of a value with its
last byte continued by a zero group decodes to the value with one more byte consumed. -/
def Obligations.PaddedInputIsAccepted : Prop :=
  (∀ (W : Width) (view : InView) (s : State) (v : BitVec W.bits), lenOf v.toNat < maxLen W →
    lenOf v.toNat < view.len →
    (∀ i, i < lenOf v.toNat → (s.mem.read (view.base + i)).toNat = groupOf v.toNat i + 128) →
    s.mem.read (view.base + lenOf v.toNat) = 0x00#8 →
    Returns W (.ok v (lenOf v.toNat + 1)) s (exec (decOf W view) s)) ∧
  BytesDecodeTo .dec8 [0x80#8, 0x00#8] .w8 (.ok 0 2) ∧
  BytesDecodeTo .dec32 [0x80#8, 0x80#8, 0x00#8] .w32 (.ok 0 3)

/-- R131: a decoder operation, on success and on error alike, changes nothing but the response, and returns the same result
for the same bytes and the same n wherever they stand. -/
def Obligations.DecoderHasNoSideEffects : Prop :=
  (∀ (W : Width) (base base' n : Nat) (s s' : State),
    (∀ i, i < n → s.mem.read (base + i) = s'.mem.read (base' + i)) →
    ∃ r, exec (decOf W ⟨base, n⟩) s = .next { s with response := .result W r } ∧
      exec (decOf W ⟨base', n⟩) s' = .next { s' with response := .result W r }) ∧
  ∀ (base base' n : Nat) (s s' : State), s.native = s'.native →
    (∀ i, i < n → s.mem.read (base + i) = s'.mem.read (base' + i)) →
    ∃ (W : Width) (r : DecodeResult W.bits), W = s.native.width ∧
      exec (.decN ⟨base, n⟩) s = .next { s with response := .result W r } ∧
      exec (.decN ⟨base', n⟩) s' = .next { s' with response := .result W r }

/-- R132, round trip: at every width and for every value, what an encoder operation wrote decodes to the value and its
length, in any later state and from any view that starts with those bytes. -/
def Obligations.DecodeOfAnEncodingGivesTheValueBack : Prop :=
  ∀ (W : Width) (obuf : Nat) (v : BitVec W.bits) (s : State),
    ∃ t len, exec (encOf W obuf v) s = .next t ∧ t.response = .len len ∧
      ∀ (s' : State) (view : InView), len ≤ view.len →
        (∀ i, i < len → s'.mem.read (view.base + i) = t.mem.read (obuf + i)) →
        Returns W (.ok v len) s' (exec (decOf W view) s')

/-- Round trip through the step (R53, R132): an encode and then a decode of its buffer, presented one after the other,
return the value after two steps. The queue of requests, and that nobody writes the buffer between two of them, are the
model's choice (log 5); the overlap counts of 0 (log 6) and the result held in the state (log 10) are too. -/
def Obligations.TwoStepsRoundTrip : Prop :=
  ∀ (W : Width) (obuf n : Nat) (v : BitVec W.bits) (s : State) (rest : List Request), lenOf v.toNat ≤ n →
    s.queue = ⟨encode (encOf W obuf v), 0⟩ :: ⟨encode (decOf W ⟨obuf, n⟩), 0⟩ :: rest →
    ∃ t u, step s = .next t ∧ t.response = .len (lenOf v.toNat) ∧ step t = .next u ∧ u.mem = t.mem ∧
      u.queue = rest ∧ u.response = .result W (.ok v (lenOf v.toNat))

/-- R27 (the spec's own inference): the first min(n, MAXLEN_W) bytes and their number give the same result. -/
def Obligations.WindowOfMaxLenBytesIsEnough : Prop :=
  ∀ (W : Width) (base n : Nat) (s : State),
    exec (decOf W ⟨base, n⟩) s = exec (decOf W ⟨base, min n (maxLen W)⟩) s

/-- R141 (the spec's own inference): Ok and Overflow do not change when the input is extended; Insufficient can turn into
any of the three. -/
def Obligations.ResultIsStableUnderExtension : Prop :=
  (∀ (W : Width) (base n n' : Nat) (s s' : State) (r : DecodeResult W.bits), r ≠ .err .insufficient → n ≤ n' →
    (∀ i, i < n → s'.mem.read (base + i) = s.mem.read (base + i)) →
    Returns W r s (exec (decOf W ⟨base, n⟩) s) → Returns W r s' (exec (decOf W ⟨base, n'⟩) s')) ∧
  BytesDecodeTo .dec8 [0x80#8] .w8 (.err .insufficient) ∧
  BytesDecodeTo .dec8 [0x80#8, 0x01#8] .w8 (.ok 128 2) ∧
  BytesDecodeTo .dec8 [0x80#8, 0x80#8] .w8 (.err .overflow) ∧
  BytesDecodeTo .dec16 [0x80#8] .w16 (.err .insufficient) ∧
  BytesDecodeTo .dec16 [0x80#8, 0x80#8] .w16 (.err .insufficient)

/-- R142: what a narrower width decodes, a wider one decodes with as many bytes; the narrower value is the wider one kept
to the narrower width, and they are the same number exactly when there are no excess bits. After Overflow the wider decoder
may succeed. (R142 is the spec's own inference from R129.) -/
def Obligations.WiderDecoderAgrees : Prop :=
  (∀ (W W' : Width) (view : InView) (s : State) (v : BitVec W.bits) (consumed : Nat), W.bits < W'.bits →
    Returns W (.ok v consumed) s (exec (decOf W view) s) →
    ∃ v' : BitVec W'.bits, Returns W' (.ok v' consumed) s (exec (decOf W' view) s) ∧
      v = v'.setWidth W.bits ∧ (noExcessBits W s.mem view consumed ↔ v' = v.setWidth W'.bits)) ∧
  BytesDecodeTo .dec8 [0x80#8, 0x80#8, 0x01#8] .w8 (.err .overflow) ∧
  BytesDecodeTo .dec16 [0x80#8, 0x80#8, 0x01#8] .w16 (.ok 0x4000 3)

/-- R133: DEC8, its code, its errors, the 1 bit it keeps of the group of byte 1, its corner cases and its worked example. -/
def Obligations.Dec8ErrorsAndCornerCases : Prop :=
  (∀ (n : NativeWidth) (ibuf ilen : Nat), decode n ⟨0b1000#4, 0, 0, ibuf, ilen⟩ = .ok (.dec8 ⟨ibuf, ilen⟩)) ∧
  (∀ (s : State) (view : InView),
    (view.len = 0 ∨ (view.len = 1 ∧ s.mem.continuesAt view 0) → Returns .w8 (.err .insufficient) s (exec (.dec8 view) s)) ∧
    (2 ≤ view.len → s.mem.continuesAt view 0 → s.mem.continuesAt view 1 →
      Returns .w8 (.err .overflow) s (exec (.dec8 view) s)) ∧
    (∀ k, k < 2 → k < view.len → (∀ i, i < k → s.mem.continuesAt view i) → s.mem.terminatesAt view k →
      ∃ v, Returns .w8 (.ok v (k + 1)) s (exec (.dec8 view) s) ∧
        v.toNat = groupSum s.mem view.base k +
          (s.mem.read (view.base + k)).toNat % (if k = 1 then 2 else 128) * 2 ^ (7 * k))) ∧
  BytesDecodeTo .dec8 [0x80#8, 0x02#8] .w8 (.ok 0 2) ∧
  BytesDecodeTo .dec8 [0xFF#8, 0x7F#8] .w8 (.ok 255 2) ∧
  BytesDecodeTo .dec8 [0x80#8, 0x00#8] .w8 (.ok 0 2) ∧
  BytesDecodeTo .dec8 [0x80#8, 0x80#8] .w8 (.err .overflow) ∧
  BytesDecodeTo .dec8 [0xFF#8, 0x81#8] .w8 (.err .overflow) ∧
  BytesDecodeTo .dec8 [0x80#8] .w8 (.err .insufficient) ∧
  BytesDecodeTo .dec8 [] .w8 (.err .insufficient) ∧
  BytesDecodeTo .dec8 [0xFF#8, 0x01#8] .w8 (.ok 255 2)

/-- R134: DEC16, its code, its errors, the 2 bits it keeps of the group of byte 2, its corner cases and its worked example. -/
def Obligations.Dec16ErrorsAndCornerCases : Prop :=
  (∀ (n : NativeWidth) (ibuf ilen : Nat), decode n ⟨0b1001#4, 0, 0, ibuf, ilen⟩ = .ok (.dec16 ⟨ibuf, ilen⟩)) ∧
  (∀ (s : State) (view : InView),
    (view.len < 3 → (∀ i, i < view.len → s.mem.continuesAt view i) →
      Returns .w16 (.err .insufficient) s (exec (.dec16 view) s)) ∧
    (3 ≤ view.len → (∀ i, i < 3 → s.mem.continuesAt view i) →
      Returns .w16 (.err .overflow) s (exec (.dec16 view) s)) ∧
    (∀ k, k < 3 → k < view.len → (∀ i, i < k → s.mem.continuesAt view i) → s.mem.terminatesAt view k →
      ∃ v, Returns .w16 (.ok v (k + 1)) s (exec (.dec16 view) s) ∧
        v.toNat = groupSum s.mem view.base k +
          (s.mem.read (view.base + k)).toNat % (if k = 2 then 4 else 128) * 2 ^ (7 * k))) ∧
  BytesDecodeTo .dec16 [0xFF#8, 0xFF#8, 0x7F#8] .w16 (.ok 0xFFFF 3) ∧
  BytesDecodeTo .dec16 [0x80#8, 0x80#8, 0x04#8] .w16 (.ok 0 3) ∧
  BytesDecodeTo .dec16 [0x81#8, 0x00#8] .w16 (.ok 1 2) ∧
  BytesDecodeTo .dec16 [0x80#8, 0x80#8] .w16 (.err .insufficient) ∧
  BytesDecodeTo .dec16 [0x80#8, 0x80#8, 0x80#8] .w16 (.err .overflow) ∧
  BytesDecodeTo .dec16 [0xFF#8, 0xFF#8, 0x03#8] .w16 (.ok 0xFFFF 3)

/-- R135: DEC32, its code, its errors, the 4 bits it keeps of the group of byte 4, its corner cases and its worked example. -/
def Obligations.Dec32ErrorsAndCornerCases : Prop :=
  (∀ (n : NativeWidth) (ibuf ilen : Nat), decode n ⟨0b1010#4, 0, 0, ibuf, ilen⟩ = .ok (.dec32 ⟨ibuf, ilen⟩)) ∧
  (∀ (s : State) (view : InView),
    (view.len < 5 → (∀ i, i < view.len → s.mem.continuesAt view i) →
      Returns .w32 (.err .insufficient) s (exec (.dec32 view) s)) ∧
    (5 ≤ view.len → (∀ i, i < 5 → s.mem.continuesAt view i) →
      Returns .w32 (.err .overflow) s (exec (.dec32 view) s)) ∧
    (∀ k, k < 5 → k < view.len → (∀ i, i < k → s.mem.continuesAt view i) → s.mem.terminatesAt view k →
      ∃ v, Returns .w32 (.ok v (k + 1)) s (exec (.dec32 view) s) ∧
        v.toNat = groupSum s.mem view.base k +
          (s.mem.read (view.base + k)).toNat % (if k = 4 then 16 else 128) * 2 ^ (7 * k))) ∧
  BytesDecodeTo .dec32 [0xFF#8, 0xFF#8, 0xFF#8, 0xFF#8, 0x7F#8] .w32 (.ok 0xFFFFFFFF 5) ∧
  BytesDecodeTo .dec32 [0x80#8, 0x80#8, 0x80#8, 0x80#8, 0x10#8] .w32 (.ok 0 5) ∧
  BytesDecodeTo .dec32 [0xAC#8] .w32 (.err .insufficient) ∧
  BytesDecodeTo .dec32 (List.replicate 5 0x80#8) .w32 (.err .overflow) ∧
  BytesDecodeTo .dec32 (List.replicate 4 0x80#8) .w32 (.err .insufficient) ∧
  BytesDecodeTo .dec32 [0xAC#8, 0x02#8] .w32 (.ok 300 2)

/-- R136: DEC64, its code, its errors, the 1 bit it keeps of the group of byte 9, its corner cases and its worked example. -/
def Obligations.Dec64ErrorsAndCornerCases : Prop :=
  (∀ (n : NativeWidth) (ibuf ilen : Nat), decode n ⟨0b1011#4, 0, 0, ibuf, ilen⟩ = .ok (.dec64 ⟨ibuf, ilen⟩)) ∧
  (∀ (s : State) (view : InView),
    (view.len < 10 → (∀ i, i < view.len → s.mem.continuesAt view i) →
      Returns .w64 (.err .insufficient) s (exec (.dec64 view) s)) ∧
    (10 ≤ view.len → (∀ i, i < 10 → s.mem.continuesAt view i) →
      Returns .w64 (.err .overflow) s (exec (.dec64 view) s)) ∧
    (∀ k, k < 10 → k < view.len → (∀ i, i < k → s.mem.continuesAt view i) → s.mem.terminatesAt view k →
      ∃ v, Returns .w64 (.ok v (k + 1)) s (exec (.dec64 view) s) ∧
        v.toNat = groupSum s.mem view.base k +
          (s.mem.read (view.base + k)).toNat % (if k = 9 then 2 else 128) * 2 ^ (7 * k))) ∧
  BytesDecodeTo .dec64 (List.replicate 9 0xFF#8 ++ [0x7F#8]) .w64 (.ok 0xFFFFFFFFFFFFFFFF 10) ∧
  BytesDecodeTo .dec64 (List.replicate 9 0x80#8 ++ [0x02#8]) .w64 (.ok 0 10) ∧
  BytesDecodeTo .dec64 (List.replicate 9 0x80#8) .w64 (.err .insufficient) ∧
  BytesDecodeTo .dec64 (List.replicate 10 0x80#8) .w64 (.err .overflow) ∧
  BytesDecodeTo .dec64 (List.replicate 9 0x80#8 ++ [0x01#8]) .w64 (.ok 0x8000000000000000 10)

/-- R137: DEC128, its code, its errors, the 2 bits it keeps of the group of byte 18, its corner cases and its worked
example. -/
def Obligations.Dec128ErrorsAndCornerCases : Prop :=
  (∀ (n : NativeWidth) (ibuf ilen : Nat), decode n ⟨0b1100#4, 0, 0, ibuf, ilen⟩ = .ok (.dec128 ⟨ibuf, ilen⟩)) ∧
  (∀ (s : State) (view : InView),
    (view.len < 19 → (∀ i, i < view.len → s.mem.continuesAt view i) →
      Returns .w128 (.err .insufficient) s (exec (.dec128 view) s)) ∧
    (19 ≤ view.len → (∀ i, i < 19 → s.mem.continuesAt view i) →
      Returns .w128 (.err .overflow) s (exec (.dec128 view) s)) ∧
    (∀ k, k < 19 → k < view.len → (∀ i, i < k → s.mem.continuesAt view i) → s.mem.terminatesAt view k →
      ∃ v, Returns .w128 (.ok v (k + 1)) s (exec (.dec128 view) s) ∧
        v.toNat = groupSum s.mem view.base k +
          (s.mem.read (view.base + k)).toNat % (if k = 18 then 4 else 128) * 2 ^ (7 * k))) ∧
  BytesDecodeTo .dec128 (List.replicate 18 0xFF#8 ++ [0x7F#8]) .w128 (.ok 0xFFFFFFFFFFFFFFFFFFFFFFFFFFFFFFFF 19) ∧
  BytesDecodeTo .dec128 (List.replicate 18 0x80#8 ++ [0x04#8]) .w128 (.ok 0 19) ∧
  BytesDecodeTo .dec128 (List.replicate 18 0x80#8) .w128 (.err .insufficient) ∧
  BytesDecodeTo .dec128 (List.replicate 19 0x80#8) .w128 (.err .overflow) ∧
  BytesDecodeTo .dec128 (List.replicate 18 0x80#8 ++ [0x02#8]) .w128 (.ok 0x80000000000000000000000000000000 19)

/-- R138: DECN is DEC32 or DEC64 as NATIVE_W says, with code 1101; the settings differ on five continuation bytes and agree
on 300. -/
def Obligations.NativeDecoderIsTheSelectedWidth : Prop :=
  (∀ (s : State) (view : InView),
    (s.native = .n32 → exec (.decN view) s = exec (.dec32 view) s) ∧
    (s.native = .n64 → exec (.decN view) s = exec (.dec64 view) s) ∧
    decode s.native ⟨0b1101#4, 0, 0, view.base, view.len⟩ = .ok (.decN view)) ∧
  (∀ (s : State) (base : Nat), bytesAt s.mem base 5 = List.replicate 5 0x80#8 →
    (s.native = .n32 → Returns .w32 (.err .overflow) s (exec (.decN ⟨base, 5⟩) s)) ∧
    (s.native = .n64 → Returns .w64 (.err .insufficient) s (exec (.decN ⟨base, 5⟩) s))) ∧
  ∀ (s : State) (base : Nat), bytesAt s.mem base 2 = [0xAC#8, 0x02#8] →
    Returns s.native.width (.ok 300 2) s (exec (.decN ⟨base, 2⟩) s)

/-- R163 (the spec's decision D7, log 15): the STATUS codes 0, 1 and 2; 3 is never produced. -/
def Obligations.StatusCodesOfTheOutcomes : Prop :=
  ∀ W : Width, (∀ (v : BitVec W.bits) (consumed : Nat), (DecodeResult.ok v consumed).status = 0#2) ∧
    (DecodeResult.err .insufficient : DecodeResult W.bits).status = 1#2 ∧
    (DecodeResult.err .overflow : DecodeResult W.bits).status = 2#2 ∧
    ∀ r : DecodeResult W.bits, r.status ≠ 3#2

/-! ### The whole machine -/

/-- From every state whose memory is canonical, a step gives one whose memory is canonical (memory as a list of cells over a
fill byte is the model's choice, log 1, log 2). -/
def Obligations.StepKeepsMemoryCanonical : Prop :=
  ∀ s t : State, StateInv s → step s = .next t → StateInv t

/-- The memory of the reset state is canonical. -/
def Obligations.ResetMemoryIsCanonical : Prop := StateInv State.reset

/-- After reset no operation is presented, none has returned anything and nothing has been written (R35, R170). The fill
byte and NATIVE_W of the reset state are the model's choices (log 2, log 3) and are not stated. -/
def Obligations.ResetHoldsNoOperationAndNoResult : Prop :=
  State.reset.queue = [] ∧ State.reset.response = .none ∧ State.reset.mem.cells = []

/-- No step changes NATIVE_W (R5, R172). That no step changes what an unwritten byte reads as (log 2) or any request but the
oldest (log 5) is the model's choice. -/
def Obligations.StepKeepsTheStaticParameters : Prop :=
  ∀ s t : State, step s = .next t →
    t.native = s.native ∧ t.mem.fill = s.mem.fill ∧ t.queue = s.queue.tail

/-- R20: what an operation returns and leaves in memory depends on its operands and the buffers alone, not on what ran
before it or what comes after it. That the queue and NATIVE_W stand in the state and are kept, and that what was returned
before stands there and is not read, is the model's choice (log 3, log 5, log 10). -/
def Obligations.NoOperationSeesAnotherButThroughMemory : Prop :=
  ∀ (i : Instr) (s s' t : State), s.mem = s'.mem → s.native = s'.native → exec i s = .next t →
    exec i s' = .next { s' with mem := t.mem, response := t.response }

/-- R54: two operations of which neither writes a byte that the other writes or reads give the same results and leave the
same memory in either order. They may read bytes in common: R54 says so for decodes, by its own inference. That the bytes
meant are the footprints of R47 and R48 is the model's reading (log 6). -/
def Obligations.DisjointOperationsAreIndependent : Prop :=
  ∀ (i j : Instr) (s : State), StateInv s → i.wellFormed s.native = true → j.wellFormed s.native = true →
    conflicts s.native s.mem i s.mem j = false →
    ∃ ti tj tij tji, exec i s = .next ti ∧ exec j s = .next tj ∧ exec j ti = .next tij ∧ exec i tj = .next tji ∧
      tij.response = tj.response ∧ tji.response = ti.response ∧ tij.mem = tji.mem

/-- R177: a narrower decoder on a wider encoding returns Overflow when the encoding is longer than it can read, and
otherwise the value kept to its width; the rule's example; a wider decoder returns the value itself. -/
def Obligations.NarrowDecodeOfAWiderEncoding : Prop :=
  (∀ (W W' : Width) (view : InView) (s : State) (v : BitVec W'.bits),
    s.mem.holdsEncoding view.base v.toNat → lenOf v.toNat ≤ view.len →
    (maxLen W < lenOf v.toNat → Returns W (.err .overflow) s (exec (decOf W view) s)) ∧
    (lenOf v.toNat ≤ maxLen W → Returns W (.ok (v.setWidth W.bits) (lenOf v.toNat)) s (exec (decOf W view) s))) ∧
  (∀ (s : State) (obuf : Nat), EncodesBytes [0xFF#8, 0x7F#8] obuf (exec (.enc16 obuf 0x3FFF#16) s)) ∧
  BytesDecodeTo .dec8 [0xFF#8, 0x7F#8] .w8 (.ok 255 2)
end

