-- ==== Sys2Proof/Laws/Memory.lean ====
section
/-! SUPPORT. The laws of the caller's memory: a read after a write, the canonical form, and equal reads on canonical
memories as equal data. -/

namespace Sys2Proof.Machine

/-! ### The list of cells -/

theorem lookupCell_eraseCell_self (a : Nat) (cells : List Host.Cell) : lookupCell (eraseCell a cells) a = none := by
  induction cells with
  | nil => rfl
  | cons c t ih =>
    by_cases h : c.1 = a
    · simpa [eraseCell, h] using ih
    · simpa [eraseCell, h, lookupCell] using ih

theorem lookupCell_eraseCell_ne {a a' : Nat} (h : a' ≠ a) (cells : List Host.Cell) :
    lookupCell (eraseCell a cells) a' = lookupCell cells a' := by
  induction cells with
  | nil => rfl
  | cons c t ih =>
    by_cases hc : c.1 = a
    · have : ¬ c.1 = a' := by omega
      simpa [eraseCell, hc, lookupCell, this, Ne.symm h] using ih
    · by_cases hc' : c.1 = a'
      · simp [eraseCell, lookupCell, hc', h]
      · simpa [eraseCell, hc, lookupCell, hc'] using ih

theorem lookupCell_insertCell_self {a : Nat} (b : Byte) {cells : List Host.Cell}
    (h : lookupCell cells a = none) : lookupCell (insertCell (a, b) cells) a = some b := by
  induction cells with
  | nil => simp [insertCell, lookupCell]
  | cons c t ih =>
    by_cases hc : c.1 = a
    · simp [lookupCell, hc] at h
    · have ht : lookupCell t a = none := by simpa [lookupCell, hc] using h
      by_cases hl : a < c.1
      · simp [insertCell, hl, lookupCell]
      · simpa [insertCell, hl, lookupCell, hc] using ih ht

theorem lookupCell_insertCell_ne {a a' : Nat} (b : Byte) (h : a' ≠ a) (cells : List Host.Cell) :
    lookupCell (insertCell (a, b) cells) a' = lookupCell cells a' := by
  induction cells with
  | nil => simp [insertCell, lookupCell, Ne.symm h]
  | cons c t ih =>
    by_cases hl : a < c.1
    · simp [insertCell, hl, lookupCell, Ne.symm h]
    · by_cases hc : c.1 = a'
      · subst hc; simp [insertCell, hl, lookupCell]
      · simpa [insertCell, hl, lookupCell, hc] using ih

/-! ### Reading and writing -/

@[simp] theorem Memory.write_fill (m : Memory) (a : Nat) (b : Byte) : (m.write a b).fill = m.fill := by
  unfold Memory.write; split <;> rfl

@[simp] theorem Memory.write_unlisted (m : Memory) (a : Nat) (b : Byte) :
    (m.write a b).unlisted = m.unlisted := Memory.write_fill m a b

/-- A read of the byte just written gives it. -/
@[simp] theorem Memory.read_write_self (m : Memory) (a : Nat) (b : Byte) : (m.write a b).read a = b := by
  unfold Memory.read Memory.write
  split
  · rename_i h; simp [lookupCell_eraseCell_self, Memory.unlisted, h]
  · simp [lookupCell_insertCell_self b (lookupCell_eraseCell_self a m.cells)]

/-- A write leaves every other byte alone. -/
theorem Memory.read_write_ne (m : Memory) {a a' : Nat} (h : a' ≠ a) (b : Byte) :
    (m.write a b).read a' = m.read a' := by
  unfold Memory.read Memory.write
  split
  · simp [lookupCell_eraseCell_ne h, Memory.unlisted]
  · simp [lookupCell_insertCell_ne b h, lookupCell_eraseCell_ne h, Memory.unlisted]

theorem Memory.read_write (m : Memory) (a a' : Nat) (b : Byte) :
    (m.write a b).read a' = if a' = a then b else m.read a' := by
  split
  · rename_i h; rw [h, Memory.read_write_self]
  · rename_i h; exact Memory.read_write_ne m h b

/-! ### The canonical form -/

theorem risingCells_cons {c : Host.Cell} {t : List Host.Cell} :
    risingCells (c :: t) = true ↔ (∀ d ∈ t, c.1 < d.1) ∧ risingCells t = true := by
  simp [risingCells]

theorem mem_insertCell {c d : Host.Cell} {cells : List Host.Cell} :
    d ∈ insertCell c cells ↔ d = c ∨ d ∈ cells := by
  induction cells with
  | nil => simp [insertCell]
  | cons e t ih =>
    by_cases h : c.1 < e.1
    · simp [insertCell, h]
    · simp [insertCell, h, ih]; tauto

theorem risingCells_eraseCell (a : Nat) {cells : List Host.Cell} (h : risingCells cells = true) :
    risingCells (eraseCell a cells) = true := by
  induction cells with
  | nil => rfl
  | cons c t ih =>
    obtain ⟨hc, ht⟩ := risingCells_cons.mp h
    by_cases e : c.1 = a
    · simpa [eraseCell, e] using ih ht
    · have : eraseCell a (c :: t) = c :: eraseCell a t := by simp [eraseCell, e]
      rw [this]
      exact risingCells_cons.mpr ⟨fun d hd => hc d (List.mem_filter.mp hd).1, ih ht⟩

theorem risingCells_insertCell {c : Host.Cell} {cells : List Host.Cell} (h : risingCells cells = true)
    (hne : ∀ d ∈ cells, d.1 ≠ c.1) : risingCells (insertCell c cells) = true := by
  induction cells with
  | nil => simp [insertCell, risingCells]
  | cons e t ih =>
    obtain ⟨he, ht⟩ := risingCells_cons.mp h
    by_cases hl : c.1 < e.1
    · simp only [insertCell, hl, if_true]
      refine risingCells_cons.mpr ⟨?_, h⟩
      intro d hd
      rcases List.mem_cons.mp hd with rfl | hd
      · exact hl
      · exact lt_trans hl (he d hd)
    · simp only [insertCell, hl, if_false]
      refine risingCells_cons.mpr ⟨?_, ih ht fun d hd => hne d (List.mem_cons_of_mem _ hd)⟩
      intro d hd
      rcases mem_insertCell.mp hd with rfl | hd
      · have := hne e List.mem_cons_self
        omega
      · exact he d hd

theorem Memory.wf_iff {m : Memory} :
    m.wf = true ↔ risingCells m.cells = true ∧ ∀ c ∈ m.cells, c.2 ≠ m.fill := by
  simp [Memory.wf, Memory.unlisted]

/-- A write keeps the canonical form. -/
theorem Memory.wf_write {m : Memory} (h : m.wf = true) (a : Nat) (b : Byte) : (m.write a b).wf = true := by
  obtain ⟨hr, hf⟩ := Memory.wf_iff.mp h
  refine Memory.wf_iff.mpr ?_
  have hmem : ∀ c ∈ eraseCell a m.cells, c ∈ m.cells ∧ c.1 ≠ a := by
    intro c hc; simpa [eraseCell] using List.mem_filter.mp hc
  unfold Memory.write
  split
  · exact ⟨risingCells_eraseCell a hr, fun c hc => hf c (hmem c hc).1⟩
  · rename_i hb
    refine ⟨risingCells_insertCell (risingCells_eraseCell a hr) fun c hc => (hmem c hc).2, ?_⟩
    intro c hc
    rcases mem_insertCell.mp hc with rfl | hc
    · exact hb
    · exact hf c (hmem c hc).1

/-- In rising cells, the head is what is listed at its address, and nothing before it is listed. -/
theorem lookupCell_none_of_lt {cells : List Host.Cell} {a : Nat} (h : ∀ d ∈ cells, a < d.1) :
    lookupCell cells a = none := by
  induction cells with
  | nil => rfl
  | cons c t ih =>
    have hc := h c List.mem_cons_self
    have hne : ¬ c.1 = a := by omega
    simpa [lookupCell, hne] using ih fun d hd => h d (List.mem_cons_of_mem _ hd)

/-- Rising cells with the same lookups are the same list. -/
theorem cells_eq_of_lookup {cs ds : List Host.Cell} (hc : risingCells cs = true) (hd : risingCells ds = true)
    (h : ∀ a, lookupCell cs a = lookupCell ds a) : cs = ds := by
  induction cs generalizing ds with
  | nil =>
    cases ds with
    | nil => rfl
    | cons d ds => have := h d.1; simp [lookupCell] at this
  | cons c cs ih =>
    cases ds with
    | nil => have := h c.1; simp [lookupCell] at this
    | cons d ds =>
      obtain ⟨hc1, hc2⟩ := risingCells_cons.mp hc
      obtain ⟨hd1, hd2⟩ := risingCells_cons.mp hd
      have below : ∀ {e : Host.Cell} {es : List Host.Cell} {a : Nat}, (∀ x ∈ es, e.1 < x.1) → a < e.1 →
          lookupCell (e :: es) a = none := by
        intro e es a he ha
        refine lookupCell_none_of_lt fun x hx => ?_
        rcases List.mem_cons.mp hx with rfl | hx
        · exact ha
        · exact lt_trans ha (he x hx)
      have key : c.1 = d.1 := by
        rcases Nat.lt_trichotomy c.1 d.1 with lt | eq | gt
        · have := h c.1; rw [below hd1 lt] at this; simp [lookupCell] at this
        · exact eq
        · have := h d.1; rw [below hc1 gt] at this; simp [lookupCell] at this
      have val : c.2 = d.2 := by
        have := h c.1; simpa [lookupCell, key] using this
      have hcd : c = d := Prod.ext key val
      subst hcd
      congr 1
      refine ih hc2 hd2 fun a => ?_
      by_cases ha : c.1 = a
      · subst ha
        rw [lookupCell_none_of_lt hc1, lookupCell_none_of_lt hd1]
      · have := h a; simpa [lookupCell, ha] using this

theorem lookupCell_mem {cells : List Host.Cell} {a : Nat} {b : Byte} (h : lookupCell cells a = some b) :
    (a, b) ∈ cells := by
  induction cells with
  | nil => simp [lookupCell] at h
  | cons c t ih =>
    by_cases hc : c.1 = a
    · have : c.2 = b := by simpa [lookupCell, hc] using h
      have : c = (a, b) := Prod.ext hc this
      simp [this]
    · exact List.mem_cons_of_mem _ (ih (by simpa [lookupCell, hc] using h))

/-- Canonical memories with the same fill that read the same are equal data. -/
theorem Memory.eq_of_reads {m m' : Memory} (h : m.wf = true) (h' : m'.wf = true) (hf : m.fill = m'.fill)
    (hr : ∀ a, m.read a = m'.read a) : m = m' := by
  obtain ⟨hm, hv⟩ := Memory.wf_iff.mp h
  obtain ⟨hm', hv'⟩ := Memory.wf_iff.mp h'
  have hl : ∀ a, lookupCell m.cells a = lookupCell m'.cells a := by
    intro a
    have e := hr a
    simp only [Memory.read, Memory.unlisted] at e
    cases h1 : lookupCell m.cells a with
    | none =>
      cases h2 : lookupCell m'.cells a with
      | none => rfl
      | some b => rw [h1, h2] at e; exact absurd (e.symm.trans hf) (hv' _ (lookupCell_mem h2))
    | some b =>
      cases h2 : lookupCell m'.cells a with
      | none => rw [h1, h2] at e; exact absurd (e.trans hf.symm) (hv _ (lookupCell_mem h1))
      | some b' => rw [h1, h2] at e; simpa using e
  have hcells : m.cells = m'.cells := cells_eq_of_lookup hm hm' hl
  cases m; cases m'; simp_all

end Sys2Proof.Machine
end

