-- ==== Sys2Proof/Laws/Network.lean ====
section
/-! SUPPORT. What each primitive of the network computes, as arithmetic on natural numbers. -/

namespace Sys2Proof.Machine

variable {w : Nat}

/-! ### Widths and constants -/

theorem maxLen_eq (W : Width) : maxLen W = maxGroups W + 1 := by cases W <;> rfl

theorem shift_lt_width (W : Width) : 7 * maxGroups W < W.bits := by cases W <;> decide

theorem width_le_groups (W : Width) : W.bits ≤ 7 * maxLen W := by cases W <;> decide

theorem one_le_maxLen (W : Width) : 1 ≤ maxLen W := by cases W <;> decide

/-! ### Shifts -/

theorem shrW_toNat (v : BitVec w) (s : Nat) : (shrW v s).toNat = v.toNat / 2 ^ s := by
  simp [shrW, Nat.shiftRight_eq_div_pow]

theorem shlW_toNat (v : BitVec w) (s : Nat) : (shlW v s).toNat = v.toNat * 2 ^ s % 2 ^ w := by
  simp [shlW, Nat.shiftLeft_eq]

/-! ### Byte helpers -/

theorem and_7F_toNat (b : Byte) : (b &&& 0x7F#8).toNat = b.toNat % 128 := by
  rw [BitVec.toNat_and]
  exact Nat.and_two_pow_sub_one_eq_mod b.toNat 7

theorem clrC_toNat (b : Byte) : (clrC b).toNat = b.toNat % 128 := and_7F_toNat b

theorem setC_toNat : ∀ g : BitVec 7, (setC g).toNat = g.toNat + 128 := by decide

theorem clrC_setC : ∀ g : BitVec 7, clrC (setC g) = g.setWidth 8 := by decide

theorem isLast_iff : ∀ b : Byte, isLast b = true ↔ b.toNat < 128 := by decide

/-! ### Counting -/

theorem clzBelow_le (v : BitVec w) (k : Nat) : clzBelow v k ≤ k := by
  induction k with
  | zero => simp [clzBelow]
  | succ k ih => simp only [clzBelow]; split <;> omega

/-- Below bit k, the bits from k − 1 down to k − clz are zero and the next one is set. -/
theorem clzBelow_spec (v : BitVec w) (k : Nat) :
    v.toNat % 2 ^ k < 2 ^ (k - clzBelow v k) ∧
      (clzBelow v k < k → 2 ^ (k - clzBelow v k - 1) ≤ v.toNat % 2 ^ k) := by
  induction k with
  | zero => simp [clzBelow, Nat.mod_one]
  | succ k ih =>
    have hmod : v.toNat % 2 ^ (k + 1) = v.toNat % 2 ^ k + 2 ^ k * (v.toNat / 2 ^ k % 2) := by
      rw [pow_succ, Nat.mod_mul]
    have hbit : v.getLsbD k = decide (v.toNat / 2 ^ k % 2 = 1) := by
      rw [← BitVec.testBit_toNat, Nat.testBit_eq_decide_div_mod_eq]
    have hlt : v.toNat % 2 ^ k < 2 ^ k := Nat.mod_lt _ (Nat.two_pow_pos k)
    simp only [clzBelow, hbit]
    by_cases h : v.toNat / 2 ^ k % 2 = 1
    · simp only [h, decide_true, if_true]
      refine ⟨?_, fun _ => ?_⟩
      · rw [hmod, h, Nat.sub_zero, pow_succ]; omega
      · rw [hmod, h]; simp
    · have h0 : v.toNat / 2 ^ k % 2 = 0 := by omega
      have hle := clzBelow_le v k
      simp only [h, decide_false]
      have e : k + 1 - (clzBelow v k + 1) = k - clzBelow v k := by omega
      simp only [Bool.false_eq_true, if_false, e, hmod, h0, Nat.mul_zero, Nat.add_zero]
      exact ⟨ih.1, fun hk => ih.2 (by omega)⟩

theorem clzW_le (v : BitVec w) : clzW v ≤ w := clzBelow_le v w

theorem toNat_lt_clzW (v : BitVec w) : v.toNat < 2 ^ (w - clzW v) := by
  have := (clzBelow_spec v w).1
  rwa [Nat.mod_eq_of_lt v.isLt] at this

theorem le_toNat_clzW (v : BitVec w) (h : clzW v < w) : 2 ^ (w - clzW v - 1) ≤ v.toNat := by
  have := (clzBelow_spec v w).2 h
  rwa [Nat.mod_eq_of_lt v.isLt] at this

theorem one_le_sigBits (v : BitVec w) : 1 ≤ sigBits v := by unfold sigBits; omega

theorem sigBits_le (v : BitVec w) (h : 1 ≤ w) : sigBits v ≤ w := by unfold sigBits; omega

/-- A value is below 2 to its significant bits. -/
theorem toNat_lt_sigBits (v : BitVec w) : v.toNat < 2 ^ sigBits v :=
  lt_of_lt_of_le (toNat_lt_clzW v) (Nat.pow_le_pow_right (by decide) (by unfold sigBits; omega))

/-- A value with more than one significant bit has its top one set. -/
theorem le_toNat_sigBits (v : BitVec w) (h : 1 < sigBits v) : 2 ^ (sigBits v - 1) ≤ v.toNat := by
  have e : sigBits v = w - clzW v := by unfold sigBits at *; omega
  rw [e]; exact le_toNat_clzW v (by omega)

/-! ### Groups -/

theorem one_le_groupCount (b : Nat) : 1 ≤ groupCount b := by unfold groupCount; omega

theorem groupCount_le_iff {b k : Nat} (hk : 1 ≤ k) : groupCount b ≤ k ↔ b ≤ 7 * k := by unfold groupCount; omega

theorem extract7_toNat (v : BitVec w) (i : Nat) : (extract7 v i).toNat = v.toNat / 2 ^ (7 * i) % 128 := by
  simp [extract7, shrW_toNat]

theorem insert7_toNat (num : BitVec w) (b : Byte) (i : Nat) (hw : 8 ≤ w) :
    (insert7 num b i).toNat = num.toNat ||| (b.toNat % 128 * 2 ^ (7 * i) % 2 ^ w) := by
  have h : b.toNat % 128 % 2 ^ w = b.toNat % 128 :=
    Nat.mod_eq_of_lt (lt_of_lt_of_le (Nat.mod_lt _ (by decide))
      (le_trans (by decide : 128 ≤ 2 ^ 8) (Nat.pow_le_pow_right (by decide) hw)))
  simp only [insert7, orW, andW, BitVec.toNat_or, shlW_toNat, BitVec.toNat_setWidth, and_7F_toNat, h]

/-- On an accumulator that holds only lower groups, the or is a sum kept to w bits (R65, R86). -/
theorem insert7_toNat_add (num : BitVec w) (b : Byte) (i : Nat) (hw : 8 ≤ w)
    (hn : num.toNat < 2 ^ (7 * i)) :
    (insert7 num b i).toNat = (num.toNat + b.toNat % 128 * 2 ^ (7 * i)) % 2 ^ w := by
  rw [insert7_toNat num b i hw]
  conv_lhs => rw [← Nat.mod_eq_of_lt num.isLt]
  rw [← Nat.or_mod_two_pow, Nat.or_comm, Nat.mul_comm (b.toNat % 128), ← Nat.two_pow_add_eq_or_of_lt hn,
    Nat.add_comm]

theorem width_ge_8 (W : Width) : 8 ≤ W.bits := by cases W <;> decide

end Sys2Proof.Machine
end

