-- ==== Sys2Proof/Laws/State.lean ====
section
/-! SUPPORT. One lemma per field per update of the state. -/

namespace Sys2Proof.Machine

variable (s : State) (m : Memory) (r : Response) (q : List Request) (nbits w : Nat)

@[simp] theorem State.finish_mem : (s.finish m r).mem = m := rfl
@[simp] theorem State.finish_queue : (s.finish m r).queue = s.queue := rfl
@[simp] theorem State.finish_response : (s.finish m r).response = r := rfl
@[simp] theorem State.finish_native : (s.finish m r).native = s.native := rfl

@[simp] theorem State.withQueue_mem : (s.withQueue q).mem = s.mem := rfl
@[simp] theorem State.withQueue_queue : (s.withQueue q).queue = q := rfl
@[simp] theorem State.withQueue_response : (s.withQueue q).response = s.response := rfl
@[simp] theorem State.withQueue_native : (s.withQueue q).native = s.native := rfl

@[simp] theorem State.withFetchWord_mem : (s.withFetchWord nbits w).mem = s.mem := rfl
@[simp] theorem State.withFetchWord_queue :
    (s.withFetchWord nbits w).queue = ⟨Ports.zeros (BitVec.ofNat 4 w), 0⟩ :: s.queue := rfl
@[simp] theorem State.withFetchWord_response : (s.withFetchWord nbits w).response = s.response := rfl
@[simp] theorem State.withFetchWord_native : (s.withFetchWord nbits w).native = s.native := rfl

/-- Completing an operation answers exactly one next state. -/
@[simp] theorem complete_eq : complete m r s = .next (s.finish m r) := rfl

/-- Two states with the same fields are the same state. -/
theorem State.eq_of_fields {s t : State} (hm : s.mem = t.mem) (hq : s.queue = t.queue)
    (hr : s.response = t.response) (hn : s.native = t.native) : s = t := by
  cases s; cases t; simp_all

end Sys2Proof.Machine
end

