-- ==== Sys2Proof/Laws/Encoder.lean ====
section
/-! SUPPORT. The length of an encoding, what memory reads as after one, and the canonical bytes as arithmetic. -/

namespace Sys2Proof.Machine

variable {w : Nat}

/-! ### Length -/

theorem significantBits_pos (x : Nat) : 1 ≤ significantBits x := by unfold significantBits; split <;> omega

theorem lt_two_pow_significantBits (x : Nat) : x < 2 ^ significantBits x := by
  unfold significantBits
  split
  · rename_i h; simp [h]
  · exact Nat.lt_log2_self

theorem two_pow_le_of_significantBits {x : Nat} (h : 1 < significantBits x) : 2 ^ (significantBits x - 1) ≤ x := by
  unfold significantBits at *
  split at h
  · omega
  · rename_i h0; rw [if_neg h0]; exact Nat.log2_self_le h0

/-- A number has at most k significant bits exactly when it is below 2 to the k. -/
theorem significantBits_le_iff {x k : Nat} (hk : 1 ≤ k) : significantBits x ≤ k ↔ x < 2 ^ k := by
  constructor
  · exact fun h => lt_of_lt_of_le (lt_two_pow_significantBits x) (Nat.pow_le_pow_right (by decide) h)
  · intro h
    by_contra hc
    have h1 := two_pow_le_of_significantBits (x := x) (by omega)
    have h2 : 2 ^ k ≤ 2 ^ (significantBits x - 1) := Nat.pow_le_pow_right (by decide) (by omega)
    omega

/-- SIGBITS counts the significant bits of the value. -/
theorem sigBits_eq (v : BitVec w) : sigBits v = significantBits v.toNat := by
  apply le_antisymm
  · by_contra hc
    have h1 := le_toNat_sigBits v (by have := significantBits_pos v.toNat; omega)
    have h2 := (significantBits_le_iff (x := v.toNat) (significantBits_pos _)).mp le_rfl
    have h3 : 2 ^ significantBits v.toNat ≤ 2 ^ (sigBits v - 1) := Nat.pow_le_pow_right (by decide) (by omega)
    omega
  · exact (significantBits_le_iff (one_le_sigBits v)).mpr (toNat_lt_sigBits v)

theorem encLen_eq (v : BitVec w) : encLen v = lenOf v.toNat := by
  unfold encLen groupCount lenOf; rw [sigBits_eq]

theorem one_le_lenOf (x : Nat) : 1 ≤ lenOf x := by unfold lenOf; omega

/-- k bytes are enough for a number exactly when it is below 2 to the 7k. -/
theorem lenOf_le_iff {x k : Nat} (hk : 1 ≤ k) : lenOf x ≤ k ↔ x < 2 ^ (7 * k) := by
  rw [← significantBits_le_iff (by omega)]; unfold lenOf; omega

theorem lt_two_pow_lenOf (x : Nat) : x < 2 ^ (7 * lenOf x) := (lenOf_le_iff (one_le_lenOf x)).mp le_rfl

theorem two_pow_le_of_lenOf {x : Nat} (h : 1 < lenOf x) : 2 ^ (7 * (lenOf x - 1)) ≤ x := by
  by_contra hc
  have := (lenOf_le_iff (x := x) (k := lenOf x - 1) (by omega)).mpr (by omega)
  omega

/-- A number of W bits needs at most MAXLEN_W bytes. -/
theorem lenOf_le_maxLen (W : Width) {x : Nat} (h : x < 2 ^ W.bits) : lenOf x ≤ maxLen W :=
  (lenOf_le_iff (one_le_maxLen W)).mpr (lt_of_lt_of_le h (Nat.pow_le_pow_right (by decide) (width_le_groups W)))

/-! ### Bytes -/

theorem groupOf_lt (x i : Nat) : groupOf x i < 128 := Nat.mod_lt _ (by decide)

theorem extract7_eq (v : BitVec w) (i : Nat) : (extract7 v i).toNat = groupOf v.toNat i := extract7_toNat v i

theorem encodedByte_last (x : Nat) : encodedByte x (lenOf x - 1) = groupOf x (lenOf x - 1) := by
  have := one_le_lenOf x
  unfold encodedByte; rw [if_pos (by omega)]

theorem encodedByte_lt_iff {x i : Nat} (_h : i < lenOf x) : encodedByte x i < 128 ↔ i + 1 = lenOf x := by
  have := groupOf_lt x i
  unfold encodedByte; split <;> omega

theorem encodedByte_mod (x i : Nat) : encodedByte x i % 128 = groupOf x i := by
  have := groupOf_lt x i
  unfold encodedByte; split <;> omega

/-! ### Memory after an encoding -/

theorem writeGroups_read (v : BitVec w) (obuf : Nat) (m : Memory) (k a : Nat) :
    (writeGroups v obuf m k).read a =
      if obuf ≤ a ∧ a < obuf + k then setC (extract7 v (a - obuf)) else m.read a := by
  induction k with
  | zero => simp only [writeGroups]; rw [if_neg (by omega)]
  | succ k ih =>
    simp only [writeGroups, Memory.read_write, ih]
    by_cases h : a = obuf + k
    · subst h; rw [if_pos rfl, if_pos (by omega)]; simp
    · rw [if_neg h]
      by_cases hk : obuf ≤ a ∧ a < obuf + k
      · rw [if_pos hk, if_pos (by omega)]
      · rw [if_neg hk, if_neg (by omega)]

@[simp] theorem writeGroups_fill (v : BitVec w) (obuf : Nat) (m : Memory) (k : Nat) :
    (writeGroups v obuf m k).fill = m.fill := by
  induction k with
  | zero => rfl
  | succ k ih => simp [writeGroups, ih]

theorem writeGroups_wf (v : BitVec w) (obuf : Nat) {m : Memory} (h : m.wf = true) (k : Nat) :
    (writeGroups v obuf m k).wf = true := by
  induction k with
  | zero => exact h
  | succ k ih => exact Memory.wf_write ih _ _

@[simp] theorem encodeInto_fill (v : BitVec w) (obuf : Nat) (m : Memory) : (encodeInto v obuf m).fill = m.fill := by
  simp [encodeInto]

theorem encodeInto_wf (v : BitVec w) (obuf : Nat) {m : Memory} (h : m.wf = true) : (encodeInto v obuf m).wf = true :=
  Memory.wf_write (writeGroups_wf v obuf h _) _ _

/-- Inside the encoding memory holds its canonical bytes. -/
theorem encodeInto_read_inside (v : BitVec w) (obuf : Nat) (m : Memory) {i : Nat} (h : i < lenOf v.toNat) :
    ((encodeInto v obuf m).read (obuf + i)).toNat = encodedByte v.toNat i := by
  have hl := one_le_lenOf v.toNat
  have hg := groupOf_lt v.toNat i
  simp only [encodeInto, encLen_eq, Memory.read_write, writeGroups_read, encodedByte]
  by_cases e : i + 1 = lenOf v.toNat
  · have ei : lenOf v.toNat - 1 = i := by omega
    rw [if_pos (by omega), if_pos e, ei, clrC_toNat, setC_toNat, extract7_eq]
    omega
  · rw [if_neg (by omega), if_pos (by omega), if_neg e, setC_toNat, extract7_eq]
    simp

/-- Outside the encoding memory is as it was. -/
theorem encodeInto_read_outside (v : BitVec w) (obuf : Nat) (m : Memory) {a : Nat}
    (h : ¬ (obuf ≤ a ∧ a < obuf + lenOf v.toNat)) : (encodeInto v obuf m).read a = m.read a := by
  have hl := one_le_lenOf v.toNat
  simp only [encodeInto, encLen_eq, Memory.read_write, writeGroups_read]
  rw [if_neg (by omega), if_neg h]

/-- All of what an encoder operation does. -/
theorem encodeOp_encodes (v : BitVec w) (obuf : Nat) (s : State) :
    Encodes v.toNat obuf s (encodeOp obuf v s) := by
  refine ⟨_, rfl, ?_, ?_, ?_, ?_, rfl, rfl⟩
  · simp [encLen_eq]
  · exact fun i hi => encodeInto_read_inside v obuf s.mem hi
  · exact fun a ha => encodeInto_read_outside v obuf s.mem ha
  · simp

end Sys2Proof.Machine
end

