-- ==== Sys2Proof/Laws/Decoder.lean ====
section
/-! SUPPORT. The decoder's loop: its three exits, each under the condition the spec gives it, and the value it returns. -/

namespace Sys2Proof.Machine

variable {w : Nat}

/-! ### Sums of groups -/

theorem groupSum_lt (m : Memory) (base k : Nat) : groupSum m base k < 2 ^ (7 * k) := by
  induction k with
  | zero => simp [groupSum]
  | succ k ih =>
    have hg : (m.read (base + k)).toNat % 128 ≤ 127 := by omega
    have := Nat.mul_le_mul_right (2 ^ (7 * k)) hg
    have e : 2 ^ (7 * (k + 1)) = 128 * 2 ^ (7 * k) := by rw [Nat.mul_add, pow_add]; ring
    simp only [groupSum]; omega

theorem groupSum_congr {m m' : Memory} {base base' k : Nat}
    (h : ∀ j, j < k → m'.read (base' + j) = m.read (base + j)) : groupSum m' base' k = groupSum m base k := by
  induction k with
  | zero => rfl
  | succ k ih =>
    simp only [groupSum]; rw [ih fun j hj => h j (by omega), h k (by omega)]

/-- The groups of a number add up to it. -/
theorem groupSum_of_groups {m : Memory} {base x k : Nat}
    (h : ∀ j, j < k → (m.read (base + j)).toNat % 128 = groupOf x j) : groupSum m base k = x % 2 ^ (7 * k) := by
  induction k with
  | zero => simp [groupSum, Nat.mod_one]
  | succ k ih =>
    simp only [groupSum]
    have e : 2 ^ (7 * (k + 1)) = 2 ^ (7 * k) * 128 := by rw [Nat.mul_add, pow_add]; ring
    rw [ih fun j hj => h j (by omega), h k (by omega), e, Nat.mod_mul, groupOf, Nat.mul_comm (2 ^ (7 * k))]

theorem groupSum_of_encoding {m : Memory} {base x : Nat} (h : m.holdsEncoding base x) :
    groupSum m base (lenOf x) = x := by
  rw [groupSum_of_groups fun j hj => by rw [h j hj, encodedByte_mod], Nat.mod_eq_of_lt (lt_two_pow_lenOf x)]

/-! ### The exits of the loop -/

theorem Memory.not_isLast_iff {m : Memory} {view : InView} {i : Nat} :
    ¬ isLast (m.read (view.base + i)) = true ↔ m.continuesAt view i := by
  rw [isLast_iff, Memory.continuesAt]; omega

theorem Memory.isLast_iff_terminatesAt {m : Memory} {view : InView} {i : Nat} :
    isLast (m.read (view.base + i)) = true ↔ m.terminatesAt view i := isLast_iff _

theorem Memory.not_continuesAt_iff {m : Memory} {view : InView} {i : Nat} :
    ¬ m.continuesAt view i ↔ m.terminatesAt view i := by
  rw [Memory.continuesAt, Memory.terminatesAt]; omega

/-- The accumulator after one more byte, while every group fits. -/
theorem insert7_groupSum {m : Memory} {view : InView} {i : Nat} {num : BitVec w} (hw : 8 ≤ w)
    (hn : num.toNat = groupSum m view.base i) :
    insert7 num (m.read (view.base + i)) i = BitVec.ofNat w (groupSum m view.base (i + 1)) := by
  apply BitVec.eq_of_toNat_eq
  rw [insert7_toNat_add num _ i hw (by rw [hn]; exact groupSum_lt m view.base i), BitVec.toNat_ofNat, hn, groupSum]

/-- Ok: the least terminal byte stands at t, within the input and within the group limit. -/
theorem decodeLoop_ok {m : Memory} {view : InView} {t : Nat} (hw : 8 ≤ w) (ht : t < view.len)
    (hlast : m.terminatesAt view t) {left i : Nat} {num : BitVec w} (hit : i ≤ t) (htl : t ≤ i + left)
    (hfit : 7 * (i + left) < w) (hbefore : ∀ j, i ≤ j → j < t → m.continuesAt view j)
    (hn : num.toNat = groupSum m view.base i) :
    decodeLoop m view left i num = .ok (BitVec.ofNat w (groupSum m view.base (t + 1))) (t + 1) := by
  induction left generalizing i num with
  | zero =>
    have e : i = t := by omega
    subst e
    unfold decodeLoop
    rw [if_neg (by omega), if_pos (Memory.isLast_iff_terminatesAt.mpr hlast), insert7_groupSum hw hn]
  | succ left ih =>
    unfold decodeLoop
    rw [if_neg (by omega)]
    by_cases e : i = t
    · subst e
      rw [if_pos (Memory.isLast_iff_terminatesAt.mpr hlast), insert7_groupSum hw hn]
    · rw [if_neg (Memory.not_isLast_iff.mpr (hbefore i le_rfl (by omega)))]
      refine ih (by omega) (by omega) (by omega) (fun j hj hjt => hbefore j (by omega) hjt) ?_
      rw [insert7_groupSum hw hn, BitVec.toNat_ofNat]
      apply Nat.mod_eq_of_lt
      exact lt_trans (groupSum_lt m view.base (i + 1)) (Nat.pow_lt_pow_right (by decide) (by omega))

/-- Overflow: every byte up to the group limit is there and continues. -/
theorem decodeLoop_overflow {m : Memory} {view : InView} {left i : Nat} {num : BitVec w}
    (hlen : i + left < view.len) (hcont : ∀ j, i ≤ j → j ≤ i + left → m.continuesAt view j) :
    decodeLoop m view left i num = .err .overflow := by
  induction left generalizing i num with
  | zero =>
    unfold decodeLoop
    rw [if_neg (by omega), if_neg (Memory.not_isLast_iff.mpr (hcont i le_rfl (by omega)))]
  | succ left ih =>
    unfold decodeLoop
    rw [if_neg (by omega), if_neg (Memory.not_isLast_iff.mpr (hcont i le_rfl (by omega)))]
    exact ih (by omega) fun j hj hjl => hcont j (by omega) (by omega)

/-- Insufficient: every byte there is continues, and the input ends within the group limit. -/
theorem decodeLoop_insufficient {m : Memory} {view : InView} {left i : Nat} {num : BitVec w}
    (hlen : view.len ≤ i + left) (hcont : ∀ j, i ≤ j → j < view.len → m.continuesAt view j) :
    decodeLoop m view left i num = .err .insufficient := by
  induction left generalizing i num with
  | zero => unfold decodeLoop; rw [if_pos (by omega)]
  | succ left ih =>
    unfold decodeLoop
    by_cases h : view.len ≤ i
    · rw [if_pos h]
    · rw [if_neg h, if_neg (Memory.not_isLast_iff.mpr (hcont i le_rfl (by omega)))]
      exact ih (by omega) fun j hj hjl => hcont j (by omega) hjl

/-! ### A whole decode -/

/-- Ok, under the condition of R124. -/
theorem decodeView_ok {W : Width} {m : Memory} {view : InView} {t : Nat} (ht : t < view.len) (htl : t < maxLen W)
    (hlast : m.terminatesAt view t) (hbefore : ∀ j, j < t → m.continuesAt view j) :
    decodeView W m view = .ok (BitVec.ofNat W.bits (groupSum m view.base (t + 1))) (t + 1) := by
  have hl := maxLen_eq W
  have hs := shift_lt_width W
  exact decodeLoop_ok (width_ge_8 W) ht hlast (Nat.zero_le t) (by omega) (by omega)
    (fun j _ hj => hbefore j hj) (by simp [groupSum, zeroW])

/-- Overflow, under the condition of R128. -/
theorem decodeView_overflow {W : Width} {m : Memory} {view : InView} (hlen : maxLen W ≤ view.len)
    (hcont : ∀ j, j < maxLen W → m.continuesAt view j) : decodeView W m view = .err .overflow := by
  have hl := maxLen_eq W
  exact decodeLoop_overflow (by omega) fun j _ hj => hcont j (by omega)

/-- Insufficient, under the condition of R127. -/
theorem decodeView_insufficient {W : Width} {m : Memory} {view : InView} (hlen : view.len < maxLen W)
    (hcont : ∀ j, j < view.len → m.continuesAt view j) : decodeView W m view = .err .insufficient := by
  have hl := maxLen_eq W
  exact decodeLoop_insufficient (by omega) fun j _ hj => hcont j hj

/-- A run of indices either all continue or has a least one that terminates. -/
theorem Memory.first_terminal (m : Memory) (view : InView) (k : Nat) :
    (∀ j, j < k → m.continuesAt view j) ∨
      ∃ t, t < k ∧ m.terminatesAt view t ∧ ∀ j, j < t → m.continuesAt view j := by
  induction k with
  | zero => exact .inl (by omega)
  | succ k ih =>
    rcases ih with h | ⟨t, ht, h1, h2⟩
    · by_cases hk : m.continuesAt view k
      · left
        intro j hj
        by_cases e : j = k
        · exact e ▸ hk
        · exact h j (by omega)
      · exact .inr ⟨k, by omega, Memory.not_continuesAt_iff.mp hk, h⟩
    · exact .inr ⟨t, by omega, h1, h2⟩

/-- Say once everything a decode can return. -/
theorem decodeView_cases (W : Width) (m : Memory) (view : InView) :
    (∃ t, t < view.len ∧ t < maxLen W ∧ m.terminatesAt view t ∧ (∀ j, j < t → m.continuesAt view j) ∧
        decodeView W m view = .ok (BitVec.ofNat W.bits (groupSum m view.base (t + 1))) (t + 1)) ∨
      (maxLen W ≤ view.len ∧ (∀ j, j < maxLen W → m.continuesAt view j) ∧ decodeView W m view = .err .overflow) ∨
      (view.len < maxLen W ∧ (∀ j, j < view.len → m.continuesAt view j) ∧
        decodeView W m view = .err .insufficient) := by
  rcases Memory.first_terminal m view (min view.len (maxLen W)) with h | ⟨t, ht, h1, h2⟩
  · by_cases hl : maxLen W ≤ view.len
    · exact .inr (.inl ⟨hl, fun j hj => h j (by omega), decodeView_overflow hl fun j hj => h j (by omega)⟩)
    · exact .inr (.inr ⟨by omega, fun j hj => h j (by omega),
        decodeView_insufficient (by omega) fun j hj => h j (by omega)⟩)
  · exact .inl ⟨t, by omega, by omega, h1, h2, decodeView_ok (by omega) (by omega) h1 h2⟩

/-- The bytes of an encoding decode to the number, whatever follows. -/
theorem decodeView_of_encoding {W : Width} {m : Memory} {view : InView} {x : Nat}
    (h : m.holdsEncoding view.base x) (hn : lenOf x ≤ view.len) (hL : lenOf x ≤ maxLen W) :
    decodeView W m view = .ok (BitVec.ofNat W.bits x) (lenOf x) := by
  have hl := one_le_lenOf x
  have e : lenOf x - 1 + 1 = lenOf x := by omega
  have := decodeView_ok (W := W) (m := m) (view := view) (t := lenOf x - 1) (by omega) (by omega)
    (by unfold Memory.terminatesAt; rw [h _ (by omega)]; exact (encodedByte_lt_iff (by omega)).mpr (by omega))
    (fun j hj => by
      unfold Memory.continuesAt; rw [h _ (by omega)]
      have := encodedByte_lt_iff (x := x) (i := j) (by omega)
      omega)
  rwa [e, groupSum_of_encoding h] at this

/-- A decode looks at nothing but the bytes it examines (R48). -/
theorem decodeView_congr {W : Width} {m m' : Memory} {view : InView}
    (h : ∀ i, i < examined W m view → m'.read (view.base + i) = m.read (view.base + i)) :
    decodeView W m' view = decodeView W m view := by
  rcases decodeView_cases W m view with ⟨t, ht, htl, h1, h2, e⟩ | ⟨hl, hc, e⟩ | ⟨hl, hc, e⟩ <;>
    simp only [examined, e] at h <;> rw [e]
  · rw [decodeView_ok ht htl, groupSum_congr fun j hj => h j hj]
    · unfold Memory.terminatesAt at *; rwa [h t (by omega)]
    · intro j hj; have := h2 j hj; unfold Memory.continuesAt at *; rwa [h j (by omega)]
  · exact decodeView_overflow hl fun j hj => by
      have := hc j hj; unfold Memory.continuesAt at *; rwa [h j hj]
  · exact decodeView_insufficient hl fun j hj => by
      have := hc j hj; unfold Memory.continuesAt at *; rwa [h j hj]

end Sys2Proof.Machine
end

