-- ==== Sys2Proof/Laws/Step.lean ====
section
/-! SUPPORT. Everything exec and step can do, said once: the operation's own effect, its frame, and the cases of a step. -/

namespace Sys2Proof.Machine

/-! ### One operation -/

@[simp] theorem exec_encOf (W : Width) (obuf : Nat) (v : BitVec W.bits) (s : State) :
    exec (encOf W obuf v) s = encodeOp obuf v s := by cases W <;> rfl

@[simp] theorem exec_decOf (W : Width) (view : InView) (s : State) :
    exec (decOf W view) s = decodeOp W view s := by cases W <;> rfl

@[simp] theorem exec_decN (view : InView) (s : State) :
    exec (.decN view) s = decodeOp s.native.width view s := rfl

theorem exec_encNativeOf {n : NativeWidth} {s : State} (h : s.native = n) (obuf : Nat) (v : BitVec n.width.bits) :
    exec (encNativeOf n obuf v) s = encodeOp obuf v s := by
  cases n <;> simp [encNativeOf, exec, execEncN, h]

/-- What a decoder operation returns is what its view decodes to. -/
theorem returns_iff {W : Width} {view : InView} {s : State} {r : DecodeResult W.bits} :
    Returns W r s (decodeOp W view s) ↔ decodeView W s.mem view = r := by
  unfold Returns decodeOp complete State.finish
  constructor
  · intro h; simpa using h
  · rintro rfl; rfl

/-- The cases of exec: an encode, a decode, or a native operand that does not exist under this NATIVE_W. -/
theorem exec_cases (i : Instr) (s : State) :
    (∃ (w : Nat) (v : BitVec w) (obuf : Nat), writesOf i = ⟨obuf, encLen v⟩ ∧ exec i s = encodeOp obuf v s) ∨
      (∃ (W : Width) (view : InView), writesOf i = .empty ∧
        (∀ m, readsOf s.native m i = ⟨view.base, examined W m view⟩) ∧ exec i s = decodeOp W view s) ∨
      (i.wellFormed s.native = false ∧ exec i s = .refused .nativeWidthMismatch) := by
  cases i with
  | enc8 obuf v => exact .inl ⟨_, v, obuf, rfl, rfl⟩
  | enc16 obuf v => exact .inl ⟨_, v, obuf, rfl, rfl⟩
  | enc32 obuf v => exact .inl ⟨_, v, obuf, rfl, rfl⟩
  | enc64 obuf v => exact .inl ⟨_, v, obuf, rfl, rfl⟩
  | enc128 obuf v => exact .inl ⟨_, v, obuf, rfl, rfl⟩
  | encN obuf v =>
    cases hn : s.native <;> cases v
    · exact .inl ⟨_, _, obuf, rfl, by simp [exec, execEncN, hn]⟩
    · exact .inr (.inr ⟨rfl, by simp [exec, execEncN, hn]⟩)
    · exact .inr (.inr ⟨rfl, by simp [exec, execEncN, hn]⟩)
    · exact .inl ⟨_, _, obuf, rfl, by simp [exec, execEncN, hn]⟩
  | dec8 view => exact .inr (.inl ⟨_, view, rfl, fun _ => rfl, rfl⟩)
  | dec16 view => exact .inr (.inl ⟨_, view, rfl, fun _ => rfl, rfl⟩)
  | dec32 view => exact .inr (.inl ⟨_, view, rfl, fun _ => rfl, rfl⟩)
  | dec64 view => exact .inr (.inl ⟨_, view, rfl, fun _ => rfl, rfl⟩)
  | dec128 view => exact .inr (.inl ⟨_, view, rfl, fun _ => rfl, rfl⟩)
  | decN view => exact .inr (.inl ⟨_, view, rfl, fun _ => rfl, rfl⟩)

theorem Span.has_iff {f : Span} {a : Nat} : f.has a = true ↔ f.base ≤ a ∧ a < f.base + f.len := by
  simp [Span.has]

@[simp] theorem Span.empty_has (a : Nat) : Span.empty.has a = false := by
  simp [Span.has, Span.empty]

/-- Two spans meet exactly when they share a byte. -/
theorem Span.meets_iff {f g : Span} : f.meets g = true ↔ ∃ a, f.has a = true ∧ g.has a = true := by
  simp only [Span.meets, decide_eq_true_eq, Span.has_iff]
  constructor
  · exact fun h => ⟨max f.base g.base, by omega, by omega⟩
  · rintro ⟨a, h1, h2⟩; omega

/-- What any completed operation leaves unchanged, and the canonical form it keeps. -/
theorem exec_frame {i : Instr} {s t : State} (h : exec i s = .next t) :
    t.queue = s.queue ∧ t.native = s.native ∧ t.mem.fill = s.mem.fill ∧
      (s.mem.wf = true → t.mem.wf = true) ∧
      ∀ a, (writesOf i).has a = false → t.mem.read a = s.mem.read a := by
  rcases exec_cases i s with ⟨w, v, obuf, hw, e⟩ | ⟨W, view, hw, -, e⟩ | ⟨-, e⟩
  · rw [e] at h
    simp only [encodeOp, complete_eq, Host.Outcome.next.injEq] at h
    subst h
    refine ⟨rfl, rfl, encodeInto_fill v obuf s.mem, encodeInto_wf v obuf, fun a ha => ?_⟩
    refine encodeInto_read_outside v obuf s.mem fun hc => ?_
    have : (writesOf i).has a = true := by rw [hw, encLen_eq]; exact Span.has_iff.mpr hc
    simp [this] at ha
  · rw [e] at h
    simp only [decodeOp, complete_eq, Host.Outcome.next.injEq] at h
    subst h
    exact ⟨rfl, rfl, rfl, id, fun _ _ => rfl⟩
  · rw [e] at h; cases h

/-- exec never faults. -/
theorem exec_ne_fault (i : Instr) (s : State) (f : Fault) : exec i s ≠ .fault f := nomatch f

/-- exec answers a next state on every well-formed operation. -/
theorem exec_completes {i : Instr} {s : State} (h : i.wellFormed s.native = true) : ∃ t, exec i s = .next t := by
  rcases exec_cases i s with ⟨w, v, obuf, -, e⟩ | ⟨W, view, -, -, e⟩ | ⟨hf, -⟩
  · exact ⟨_, e⟩
  · exact ⟨_, e⟩
  · simp [hf] at h

/-! ### Decoding the ports -/

theorem valueOfWidth_ok {w : Nat} {p : Ports} {v : BitVec w} (h : valueOfWidth w p = .ok v) :
    p.value.toNat < 2 ^ w ∧ v = p.value.setWidth w := by
  unfold valueOfWidth at h
  split at h
  · exact ⟨‹_›, by simpa using h.symm⟩
  · cases h

/-- A mapped result is ok exactly when the result is. -/
theorem map_eq_ok {ε α β : Type} {f : α → β} {x : Except ε α} {b : β} (h : x.map f = .ok b) :
    ∃ a, x = .ok a ∧ f a = b := by
  cases x with
  | error e => cases h
  | ok a => exact ⟨a, rfl, by simpa [Except.map] using h⟩

/-- The native operand has NATIVE_W bits. -/
theorem nativeValueOf_native {n : NativeWidth} {p : Ports} {v : NativeValue} (h : nativeValueOf n p = .ok v) :
    v.native = n := by
  cases n <;> obtain ⟨x, -, rfl⟩ := map_eq_ok h <;> rfl

/-- A decoded operation is well formed. -/
theorem decode_wellFormed {n : NativeWidth} {p : Ports} {i : Instr} (h : decode n p = .ok i) :
    i.wellFormed n = true := by
  unfold decode at h
  split at h
  case h_6 =>
    obtain ⟨v, hv, rfl⟩ := map_eq_ok h
    simpa [Instr.wellFormed] using nativeValueOf_native hv
  case h_13 => cases h
  all_goals first
    | (obtain ⟨v, -, rfl⟩ := map_eq_ok h; rfl)
    | (cases h; rfl)

/-! ### One step -/

/-- The cases of a step. -/
theorem step_cases (s : State) :
    (s.queue = [] ∧ step s = .next s) ∨
      (∃ r rest e, s.queue = r :: rest ∧ decode s.native r.ports = .error e ∧ step s = .refused (refusalOf e)) ∨
      (∃ r rest i, s.queue = r :: rest ∧ decode s.native r.ports = .ok i ∧
        conflictsWithAny s.native s.mem i s.mem (rest.take r.overlap) = true ∧ step s = .refused .aliasedBuffer) ∨
      (∃ r rest i, s.queue = r :: rest ∧ decode s.native r.ports = .ok i ∧
        conflictsWithAny s.native s.mem i s.mem (rest.take r.overlap) = false ∧ step s = exec i (s.withQueue rest)) := by
  unfold step
  cases hq : s.queue with
  | nil => exact .inl ⟨rfl, rfl⟩
  | cons r rest =>
    cases hd : decode s.native r.ports with
    | error e => exact .inr (.inl ⟨r, rest, e, rfl, hd, by simp [hd]⟩)
    | ok i =>
      cases hc : conflictsWithAny s.native s.mem i s.mem (rest.take r.overlap) with
      | true => exact .inr (.inr (.inl ⟨r, rest, i, rfl, hd, hc, by simp [hd, hc]⟩))
      | false => exact .inr (.inr (.inr ⟨r, rest, i, rfl, hd, hc, by simp [hd, hc]⟩))

/-- An operation conflicts with some later request exactly when one of them holds an operation it conflicts with, in the
memory that the requests between them leave. -/
theorem conflictsWithAny_iff {n : NativeWidth} {m m' : Memory} {i : Instr} {rs : List Request} :
    conflictsWithAny n m i m' rs = true ↔
      ∃ before q after, rs = before ++ q :: after ∧ ∃ j, decode n q.ports = .ok j ∧
        conflicts n m i (before.foldl (memoryAfterRequest n) m') j = true := by
  induction rs generalizing m' with
  | nil => simp [conflictsWithAny]
  | cons r rs ih =>
    rw [conflictsWithAny, Bool.or_eq_true, ih]
    constructor
    · rintro (h | ⟨before, q, after, rfl, j, hj⟩)
      · cases hd : decode n r.ports with
        | error e => simp [hd] at h
        | ok j => exact ⟨[], r, rs, rfl, j, hd, by simpa [hd] using h⟩
      · exact ⟨r :: before, q, after, rfl, j, hj⟩
    · rintro ⟨before, q, after, e, j, hd, hj⟩
      cases before with
      | nil => cases e; left; simpa [hd] using hj
      | cons b before => cases e; exact .inr ⟨before, q, after, rfl, j, hd, hj⟩

/-- What a completed operation leaves in memory does not depend on the queue or on what was returned before. -/
theorem exec_mem {i : Instr} {s t : State} (h : exec i s = .next t) : t.mem = memoryAfter s.native s.mem i := by
  unfold memoryAfter
  cases i <;> cases hn : s.native <;>
    first
    | (rename_i v; cases v <;> simp_all [exec, execEncN, encodeOp] <;> subst h <;> simp)
    | (simp_all [exec, execEnc8, execEnc16, execEnc32, execEnc64, execEnc128, execDec8, execDec16, execDec32, execDec64,
        execDec128, execDecN, encodeOp, decodeOp]; subst h; simp)

end Sys2Proof.Machine
end

