-- ==== Sys2Proof/Laws/Bytes.lean ====
section
/-! SUPPORT. Runs of bytes in memory: a decode sees nothing of them but the list, and an encoding is the list of its canonical
bytes. -/

namespace Sys2Proof.Machine

theorem bytesAt_length (m : Memory) (base n : Nat) : (bytesAt m base n).length = n := by
  induction n generalizing base with
  | zero => rfl
  | succ n ih => simp [bytesAt, ih]

/-- Two runs are the same list exactly when they agree byte by byte. -/
theorem bytesAt_eq_iff {m m' : Memory} {base base' n : Nat} :
    bytesAt m base n = bytesAt m' base' n ↔ ∀ i, i < n → m.read (base + i) = m'.read (base' + i) := by
  induction n generalizing base base' with
  | zero => simp [bytesAt]
  | succ n ih =>
    simp only [bytesAt, List.cons.injEq, ih]
    constructor
    · rintro ⟨h0, hs⟩ i hi
      cases i with
      | zero => exact h0
      | succ i => have := hs i (by omega); rwa [show base + 1 + i = base + (i + 1) by omega,
          show base' + 1 + i = base' + (i + 1) by omega] at this
    · intro h
      refine ⟨h 0 (by omega), fun i hi => ?_⟩
      have := h (i + 1) (by omega)
      rwa [show base + (i + 1) = base + 1 + i by omega, show base' + (i + 1) = base' + 1 + i by omega] at this

/-- A decode sees nothing of its input but the bytes. -/
theorem decodeView_of_bytes {W : Width} {m m' : Memory} {base base' n : Nat}
    (h : bytesAt m base n = bytesAt m' base' n) :
    decodeView W m ⟨base, n⟩ = decodeView W m' ⟨base', n⟩ := by
  have hr := bytesAt_eq_iff.mp h
  have hc : ∀ j, j < n → m'.continuesAt ⟨base', n⟩ j → m.continuesAt ⟨base, n⟩ j := by
    intro j hj hc; unfold Memory.continuesAt at *; rwa [hr j hj]
  rcases decodeView_cases W m' ⟨base', n⟩ with ⟨t, ht, htl, h1, h2, e⟩ | ⟨hl, h2, e⟩ | ⟨hl, h2, e⟩ <;> rw [e]
  · simp only at ht
    rw [decodeView_ok (t := t) ht htl, groupSum_congr fun j hj => hr j (by omega)]
    · unfold Memory.terminatesAt at *; rwa [hr t ht]
    · exact fun j hj => hc j (by omega) (h2 j hj)
  · simp only at hl
    exact decodeView_overflow hl fun j hj => hc j (by omega) (h2 j hj)
  · simp only at hl
    exact decodeView_insufficient hl fun j hj => hc j (by simpa using hj) (h2 j hj)

/-- A memory that lists these bytes from address 0 on. -/
def memoryOf (bytes : List Byte) : Memory := ⟨0, (bytes.zipIdx.map fun c => (c.2, c.1))⟩

/-- The bytes of a run that holds this list. -/
theorem bytesAt_eq_list_iff {m : Memory} {base : Nat} {bytes : List Byte} :
    bytesAt m base bytes.length = bytes ↔ ∀ i, (h : i < bytes.length) → m.read (base + i) = bytes[i] := by
  induction bytes generalizing base with
  | nil => simp [bytesAt]
  | cons b t ih =>
    simp only [List.length_cons, bytesAt, List.cons.injEq, ih]
    constructor
    · rintro ⟨h0, hs⟩ i hi
      cases i with
      | zero => exact h0
      | succ i => have := hs i (by omega); rwa [show base + 1 + i = base + (i + 1) by omega] at this
    · intro h
      refine ⟨h 0 (by omega), fun i hi => ?_⟩
      have := h (i + 1) (by omega)
      rwa [show base + (i + 1) = base + 1 + i by omega] at this

theorem lookupCell_zipIdx (bytes : List Byte) (k i : Nat) :
    lookupCell ((bytes.zipIdx k).map fun c => (c.2, c.1)) (k + i) = bytes[i]? := by
  induction bytes generalizing k i with
  | nil => rfl
  | cons b t ih =>
    cases i with
    | zero => simp [lookupCell]
    | succ i =>
      have := ih (k + 1) i
      rw [show k + 1 + i = k + (i + 1) by omega] at this
      simp [lookupCell, this]

theorem bytesAt_memoryOf (bytes : List Byte) : bytesAt (memoryOf bytes) 0 bytes.length = bytes := by
  refine bytesAt_eq_list_iff.mpr fun i hi => ?_
  have := lookupCell_zipIdx bytes 0 i
  simp only [Nat.zero_add] at this
  simp [Memory.read, memoryOf, this, hi]

/-- A decode of a list of bytes can be computed on any one memory that holds them. -/
theorem bytesDecodeTo_of_memoryOf {dec : InView → Instr} {W : Width} {bytes : List Byte} {r : DecodeResult W.bits}
    (hd : ∀ view s, exec (dec view) s = decodeOp W view s)
    (h : decodeView W (memoryOf bytes) ⟨0, bytes.length⟩ = r) : BytesDecodeTo dec bytes W r := by
  intro s base hb
  rw [hd, returns_iff, ← h]
  exact decodeView_of_bytes (hb.trans (bytesAt_memoryOf bytes).symm)

/-- The bytes of an encoding, as a list. -/
theorem encodesBytes_of_list {w : Nat} {v : BitVec w} {obuf : Nat} {s : State} {bytes : List Byte}
    (hl : bytes.length = lenOf v.toNat)
    (h : ∀ i, (hi : i < bytes.length) → bytes[i].toNat = encodedByte v.toNat i) :
    EncodesBytes bytes obuf (encodeOp obuf v s) := by
  obtain ⟨t, e, hr, hb, -⟩ := encodeOp_encodes v obuf s
  refine ⟨t, e, by rw [hl]; exact hr, bytesAt_eq_list_iff.mpr fun i hi => ?_⟩
  exact BitVec.eq_of_toNat_eq (by rw [hb i (hl ▸ hi), h i hi])

end Sys2Proof.Machine
end

