-- ==== Sys2Proof/Laws/PerInstr.lean ====
section
/-! SUPPORT. Per-operation statements: the ports that present a well-formed operation are well-formed ports. -/

namespace Sys2Proof.Laws.EncodedPorts

/-- The ports of an operation hold an operation. -/
def Statement (i : Instr) : Prop := ∀ native, i.wellFormed native = true → (encode i).wellFormed native = true

/-- The VALUE port of an encoder operation holds a number of its width. -/
theorem setWidth_fits {w : Nat} (hw : w ≤ 128) (v : BitVec w) : (v.setWidth 128).toNat < 2 ^ w := by
  rw [BitVec.toNat_setWidth, Nat.mod_eq_of_lt (lt_of_lt_of_le v.isLt (Nat.pow_le_pow_right (by decide) hw))]
  exact v.isLt

/-- Ports with the code of an encoder operation of width W, and a value of W bits. -/
theorem forEncoder_wellFormed {native : NativeWidth} (W : Width) (opsel : BitVec 4) (obuf : Nat)
    (value : BitVec W.bits) (h : wselWidth native (opsel.toNat % 8) = some W) :
    (Ports.forEncoder opsel obuf value).wellFormed native = true := by
  have hw : W.bits ≤ 128 := by cases W <;> decide
  have hv : decide ((Ports.forEncoder opsel obuf value).value.toNat < 2 ^ W.bits) = true :=
    decide_eq_true (setWidth_fits hw value)
  have hs : wselWidth native (Ports.forEncoder opsel obuf value).wsel = some W := h
  simp only [Ports.wellFormed, hs, hv, Bool.or_true]

/-- Ports with the code of a decoder operation. -/
theorem forDecoder_wellFormed {native : NativeWidth} (W : Width) (opsel : BitVec 4) (ibuf : InView)
    (h : wselWidth native (opsel.toNat % 8) = some W) :
    (Ports.forDecoder opsel ibuf).wellFormed native = true := by
  simp [Ports.wellFormed, Ports.wsel, Ports.forDecoder, h]

theorem enc8 (obuf : Nat) (value : BitVec 8) : Statement (.enc8 obuf value) := fun _ _ =>
  forEncoder_wellFormed .w8 _ obuf value rfl

theorem enc16 (obuf : Nat) (value : BitVec 16) : Statement (.enc16 obuf value) := fun _ _ =>
  forEncoder_wellFormed .w16 _ obuf value rfl

theorem enc32 (obuf : Nat) (value : BitVec 32) : Statement (.enc32 obuf value) := fun _ _ =>
  forEncoder_wellFormed .w32 _ obuf value rfl

theorem enc64 (obuf : Nat) (value : BitVec 64) : Statement (.enc64 obuf value) := fun _ _ =>
  forEncoder_wellFormed .w64 _ obuf value rfl

theorem enc128 (obuf : Nat) (value : BitVec 128) : Statement (.enc128 obuf value) := fun _ _ =>
  forEncoder_wellFormed .w128 _ obuf value rfl

theorem encN (obuf : Nat) (value : NativeValue) : Statement (.encN obuf value) := by
  intro native h
  cases value <;> cases native <;> try cases h
  · exact forEncoder_wellFormed .w32 _ obuf _ (by decide)
  · exact forEncoder_wellFormed .w64 _ obuf _ (by decide)

theorem dec8 (ibuf : InView) : Statement (.dec8 ibuf) := fun _ _ =>
  forDecoder_wellFormed .w8 _ ibuf rfl

theorem dec16 (ibuf : InView) : Statement (.dec16 ibuf) := fun _ _ =>
  forDecoder_wellFormed .w16 _ ibuf rfl

theorem dec32 (ibuf : InView) : Statement (.dec32 ibuf) := fun _ _ =>
  forDecoder_wellFormed .w32 _ ibuf rfl

theorem dec64 (ibuf : InView) : Statement (.dec64 ibuf) := fun _ _ =>
  forDecoder_wellFormed .w64 _ ibuf rfl

theorem dec128 (ibuf : InView) : Statement (.dec128 ibuf) := fun _ _ =>
  forDecoder_wellFormed .w128 _ ibuf rfl

theorem decN (ibuf : InView) : Statement (.decN ibuf) := fun native _ =>
  forDecoder_wellFormed native.width _ ibuf rfl

end Sys2Proof.Laws.EncodedPorts
end

