-- ==== Sys2Proof/Tests/Slice0.lean ====
section
/-! SUPPORT. Tests of one step each, with expected results from spec/95_test_vectors.md and the rules' own examples, and for
every statement with hypotheses a witness that meets them together. -/

namespace Sys2Proof.Tests

open Sys2Proof.Machine

/-! ### Small states -/

/-- Bytes written one after another from an address on. -/
def place (m : Memory) (base : Nat) : List Byte → Memory
  | [] => m
  | b :: t => place (m.write base b) (base + 1) t

/-- A state whose memory reads 0xAA wherever these bytes do not stand (R171: a poisoned buffer). -/
def holding (bytes : List Byte) : State := { State.reset with mem := place ⟨0xAA#8, []⟩ 0 bytes }

/-- The same under NATIVE_W = 32. -/
def holding32 (bytes : List Byte) : State := { holding bytes with native := .n32 }

/-- The next state, if there is one. -/
def nextOf : Host.Outcome State Fault Refusal → Option State
  | .next t => some t
  | .fault _ => none
  | .refused _ => none

/-- The refusal, if there is one. -/
def refusalIn : Host.Outcome State Fault Refusal → Option Refusal
  | .next _ => none
  | .fault _ => none
  | .refused r => some r

/-- What an operation returned, and the first bytes of memory after it. -/
def seen (n : Nat) (o : Host.Outcome State Fault Refusal) : Option (Response × List Byte) :=
  (nextOf o).map fun t => (t.response, bytesAt t.mem 0 n)

/-! ### What is not well formed is refused -/

theorem test_wellFormed_refuses_reserved_code : (Ports.zeros 0b0110#4).wellFormed .n64 = false := by decide

theorem test_wellFormed_refuses_wide_value : (⟨0b0000#4, 256#128, 0, 0, 0⟩ : Ports).wellFormed .n64 = false := by decide

theorem test_wellFormed_refuses_other_native_width : (Instr.encN 0 (.n32 0#32)).wellFormed .n64 = false := by decide

/-! ### Decoding, from the table of R72 -/

theorem test_decode_0000 : decode .n64 ⟨0b0000#4, 255#128, 7, 0, 0⟩ = .ok (.enc8 7 255#8) := by rfl
theorem test_decode_0001 : decode .n64 ⟨0b0001#4, 0x4000#128, 7, 0, 0⟩ = .ok (.enc16 7 0x4000#16) := by rfl
theorem test_decode_0010 : decode .n64 ⟨0b0010#4, 300#128, 7, 0, 0⟩ = .ok (.enc32 7 300#32) := by rfl
theorem test_decode_0011 : decode .n64 ⟨0b0011#4, 300#128, 7, 0, 0⟩ = .ok (.enc64 7 300#64) := by rfl
theorem test_decode_0100 : decode .n64 ⟨0b0100#4, 300#128, 7, 0, 0⟩ = .ok (.enc128 7 300#128) := by rfl
theorem test_decode_0101 : decode .n32 ⟨0b0101#4, 300#128, 7, 0, 0⟩ = .ok (.encN 7 (.n32 300#32)) := by rfl
theorem test_decode_1000 : decode .n64 ⟨0b1000#4, 0, 0, 9, 4⟩ = .ok (.dec8 ⟨9, 4⟩) := by rfl
theorem test_decode_1001 : decode .n64 ⟨0b1001#4, 0, 0, 9, 4⟩ = .ok (.dec16 ⟨9, 4⟩) := by rfl
theorem test_decode_1010 : decode .n64 ⟨0b1010#4, 0, 0, 9, 4⟩ = .ok (.dec32 ⟨9, 4⟩) := by rfl
theorem test_decode_1011 : decode .n64 ⟨0b1011#4, 0, 0, 9, 4⟩ = .ok (.dec64 ⟨9, 4⟩) := by rfl
theorem test_decode_1100 : decode .n64 ⟨0b1100#4, 0, 0, 9, 4⟩ = .ok (.dec128 ⟨9, 4⟩) := by rfl
theorem test_decode_1101 : decode .n64 ⟨0b1101#4, 0, 0, 9, 4⟩ = .ok (.decN ⟨9, 4⟩) := by rfl

theorem test_decode_wide_value : decode .n64 ⟨0b0000#4, 256#128, 7, 0, 0⟩ = .error .valueTooWide := by rfl

/-- The rows of the table as numbers; the reserved codes give none (F1). -/
theorem test_table_words :
    [0, 1, 2, 3, 4, 5].map (decodeTableWord 8) = [some (.enc8 0 0), some (.enc16 0 0), some (.enc32 0 0),
      some (.enc64 0 0), some (.enc128 0 0), some (.encN 0 (.n64 0))] ∧
    [8, 9, 10, 11, 12, 13].map (decodeTableWord 8) = [some (.dec8 ⟨0, 0⟩), some (.dec16 ⟨0, 0⟩),
      some (.dec32 ⟨0, 0⟩), some (.dec64 ⟨0, 0⟩), some (.dec128 ⟨0, 0⟩), some (.decN ⟨0, 0⟩)] ∧
    [6, 7, 14, 15].map (decodeTableWord 8) = [none, none, none, none] := by decide

/-! ### The first step after reset -/

/-- E1, E6, E16, E30, E53: zero encodes to one byte. -/
theorem test_first_step_encodes_zero :
    [0, 1, 2, 3, 4, 5].map (fun w => seen 1 (step (State.reset.withFetchWord 8 w))) =
      List.replicate 6 (some (.len 1, [0x00#8])) := by decide +kernel

/-- S6: empty input is Insufficient at every width. -/
theorem test_first_step_decodes_empty_input :
    [8, 9, 10, 11, 12, 13].map (fun w => (seen 0 (step (State.reset.withFetchWord 8 w))).map Prod.fst) =
      [some (.result .w8 (.err .insufficient)), some (.result .w16 (.err .insufficient)),
       some (.result .w32 (.err .insufficient)), some (.result .w64 (.err .insufficient)),
       some (.result .w128 (.err .insufficient)), some (.result .w64 (.err .insufficient))] := by decide

theorem test_reset_idles : nextOf (step State.reset) = some State.reset := by decide

/-! ### The encoder (spec/95_test_vectors.md section 3.2); the byte after the encoding keeps the poison -/

theorem test_enc8_128 : seen 3 (exec (.enc8 0 128#8) (holding [])) = some (.len 2, [0x80#8, 0x01#8, 0xAA#8]) := by decide
theorem test_enc8_127 : seen 2 (exec (.enc8 0 127#8) (holding [])) = some (.len 1, [0x7F#8, 0xAA#8]) := by decide
theorem test_enc16_max :
    seen 4 (exec (.enc16 0 0xFFFF#16) (holding [])) = some (.len 3, [0xFF#8, 0xFF#8, 0x03#8, 0xAA#8]) := by decide
theorem test_enc16_4000 :
    seen 4 (exec (.enc16 0 0x4000#16) (holding [])) = some (.len 3, [0x80#8, 0x80#8, 0x01#8, 0xAA#8]) := by decide
/-- P1, step 1. -/
theorem test_enc32_300 : seen 5 (exec (.enc32 0 300#32) (holding [])) =
    some (.len 2, [0xAC#8, 0x02#8, 0xAA#8, 0xAA#8, 0xAA#8]) := by decide
theorem test_enc32_top : seen 6 (exec (.enc32 0 0x80000000#32) (holding [])) =
    some (.len 5, [0x80#8, 0x80#8, 0x80#8, 0x80#8, 0x08#8, 0xAA#8]) := by decide
/-- P4, step 2: the tail of the longer encoding stays. -/
theorem test_enc64_after_longer : seen 10 (exec (.enc64 0 300#64) (holding (List.replicate 9 0xFF#8 ++ [0x01#8]))) =
    some (.len 2, [0xAC#8, 0x02#8] ++ List.replicate 7 0xFF#8 ++ [0x01#8]) := by decide
theorem test_enc64_max : seen 11 (exec (.enc64 0 0xFFFFFFFFFFFFFFFF#64) (holding [])) =
    some (.len 10, List.replicate 9 0xFF#8 ++ [0x01#8, 0xAA#8]) := by decide
theorem test_enc128_top : seen 20 (exec (.enc128 0 0x80000000000000000000000000000000#128) (holding [])) =
    some (.len 19, List.replicate 18 0x80#8 ++ [0x02#8, 0xAA#8]) := by decide +kernel
/-- E79. -/
theorem test_enc128_84_bits : seen 13 (exec (.enc128 0 0xFFFFFFFFFFFFFFFFFFFFF#128) (holding [])) =
    some (.len 12, List.replicate 11 0xFF#8 ++ [0x7F#8, 0xAA#8]) := by decide +kernel
/-- E43: 2^35 exists under NATIVE_W = 64 only. -/
theorem test_encN_64 : seen 7 (exec (.encN 0 (.n64 0x800000000#64)) (holding [])) =
    some (.len 6, List.replicate 5 0x80#8 ++ [0x01#8, 0xAA#8]) := by decide
theorem test_encN_32 : seen 3 (exec (.encN 0 (.n32 300#32)) (holding32 [])) =
    some (.len 2, [0xAC#8, 0x02#8, 0xAA#8]) := by decide

/-! ### The decoder (spec/95_test_vectors.md section 3.3) -/

/-- V5: an excess bit is dropped. -/
theorem test_dec8_excess : (seen 0 (exec (.dec8 ⟨0, 2⟩) (holding [0xAC#8, 0x02#8]))).map Prod.fst =
    some (.result .w8 (.ok 44 2)) := by decide
/-- V14: a terminal byte after the limit does not help. -/
theorem test_dec8_overflow : (seen 0 (exec (.dec8 ⟨0, 3⟩) (holding [0xFF#8, 0xFF#8, 0x00#8]))).map Prod.fst =
    some (.result .w8 (.err .overflow)) := by decide
/-- V23: trailing bytes are ignored. -/
theorem test_dec16_trailing :
    (seen 0 (exec (.dec16 ⟨0, 5⟩) (holding [0xFF#8, 0xFF#8, 0x03#8, 0x80#8, 0x80#8]))).map Prod.fst =
    some (.result .w16 (.ok 0xFFFF 3)) := by decide
/-- V29: n = MAXGROUPS continuation bytes. -/
theorem test_dec16_insufficient : (seen 0 (exec (.dec16 ⟨0, 2⟩) (holding [0x80#8, 0x80#8]))).map Prod.fst =
    some (.result .w16 (.err .insufficient)) := by decide
/-- V43: padded to the full length. -/
theorem test_dec32_padded :
    (seen 0 (exec (.dec32 ⟨0, 5⟩) (holding [0x81#8, 0x80#8, 0x80#8, 0x80#8, 0x00#8]))).map Prod.fst =
    some (.result .w32 (.ok 1 5)) := by decide
/-- P1, step 2. -/
theorem test_dec32_300 : (seen 0 (exec (.dec32 ⟨0, 2⟩) (holding [0xAC#8, 0x02#8]))).map Prod.fst =
    some (.result .w32 (.ok 300 2)) := by decide
/-- V62. -/
theorem test_dec64_excess : (seen 0 (exec (.dec64 ⟨0, 10⟩) (holding (List.replicate 9 0x80#8 ++ [0x02#8])))).map Prod.fst =
    some (.result .w64 (.ok 0 10)) := by decide
/-- V64. -/
theorem test_dec64_overflow : (seen 0 (exec (.dec64 ⟨0, 10⟩) (holding (List.replicate 10 0x80#8)))).map Prod.fst =
    some (.result .w64 (.err .overflow)) := by decide
/-- V73. -/
theorem test_dec128_max : (seen 0 (exec (.dec128 ⟨0, 19⟩) (holding (List.replicate 18 0xFF#8 ++ [0x03#8])))).map Prod.fst =
    some (.result .w128 (.ok 0xFFFFFFFFFFFFFFFFFFFFFFFFFFFFFFFF 19)) := by decide
/-- V80. -/
theorem test_dec128_insufficient : (seen 0 (exec (.dec128 ⟨0, 18⟩) (holding (List.replicate 18 0x80#8)))).map Prod.fst =
    some (.result .w128 (.err .insufficient)) := by decide
/-- R181: the two settings of NATIVE_W tell five continuation bytes and a terminal one apart. -/
theorem test_decN_32 : (seen 0 (exec (.decN ⟨0, 6⟩) (holding32 (List.replicate 5 0x80#8 ++ [0x01#8])))).map Prod.fst =
    some (.result .w32 (.err .overflow)) := by decide
theorem test_decN_64 : (seen 0 (exec (.decN ⟨0, 6⟩) (holding (List.replicate 5 0x80#8 ++ [0x01#8])))).map Prod.fst =
    some (.result .w64 (.ok 0x800000000 6)) := by decide

/-! ### Refusals (spec/95_test_vectors.md section 3.4) -/

/-- A state with these requests presented. -/
def presenting (queue : List Request) : State := { holding [0xAC#8, 0x02#8, 0x07#8] with queue := queue }

/-- F1, at the boundary: WSEL 6 and 7 in both directions, not 5. -/
theorem test_reserved_codes :
    [0b0110#4, 0b0111#4, 0b1110#4, 0b1111#4].map (fun c => refusalIn (step (presenting [⟨Ports.zeros c, 0⟩]))) =
      List.replicate 4 (some .reservedOpsel) ∧
    [0b0101#4, 0b1101#4].map (fun c => refusalIn (step (presenting [⟨Ports.zeros c, 0⟩]))) = [none, none] := by decide

/-- F2: two encodes in progress at once that write the same byte; one byte further on they do not. -/
theorem test_overlapping_encodes :
    refusalIn (step (presenting [⟨encode (.enc32 0 300#32), 1⟩, ⟨encode (.enc8 1 0#8), 0⟩])) = some .aliasedBuffer ∧
    refusalIn (step (presenting [⟨encode (.enc32 0 300#32), 1⟩, ⟨encode (.enc8 2 0#8), 0⟩])) = none := by decide

/-- F3: a decode in progress at once with an encode that writes a byte it reads; after the terminal byte they do not meet. -/
theorem test_overlapping_decode_and_encode :
    refusalIn (step (presenting [⟨encode (.dec32 ⟨0, 3⟩), 1⟩, ⟨encode (.enc8 1 0#8), 0⟩])) = some .aliasedBuffer ∧
    refusalIn (step (presenting [⟨encode (.enc8 1 0#8), 1⟩, ⟨encode (.dec32 ⟨0, 3⟩), 0⟩])) = some .aliasedBuffer ∧
    refusalIn (step (presenting [⟨encode (.dec32 ⟨0, 3⟩), 1⟩, ⟨encode (.enc8 2 0#8), 0⟩])) = none := by decide

/-- A decode in progress at once with the first operation reads less because the one between has written a terminal byte;
with nothing between, it meets the first operation's byte. -/
theorem test_overlap_seen_after_a_write :
    refusalIn (step (presenting [⟨encode (.enc8 1 0#8), 2⟩, ⟨encode (.enc8 0 5#8), 0⟩, ⟨encode (.dec32 ⟨0, 3⟩), 0⟩])) =
      none ∧
    refusalIn (step (presenting [⟨encode (.enc8 1 0#8), 2⟩, ⟨encode (.dec32 ⟨0, 3⟩), 0⟩, ⟨encode (.enc8 0 5#8), 0⟩])) =
      some .aliasedBuffer := by decide

/-- One after the other, operations on the same bytes are ordinary (R176). -/
theorem test_sequential_reuse_is_allowed :
    refusalIn (step (presenting [⟨encode (.enc32 0 300#32), 0⟩, ⟨encode (.enc8 0 0#8), 0⟩])) = none := by decide

/-! ### Witnesses: each statement's hypotheses are met together -/

theorem witness_ReservedOpselIsRefused :
    ∃ (s : State) (r : Request) (rest : List Request), s.queue = r :: rest ∧ step s = .refused .reservedOpsel :=
  ⟨presenting [⟨Ports.zeros 0b1110#4, 0⟩], _, _, rfl, rfl⟩

theorem witness_DecodeOfEncodeGivesTheOperationBack :
    (Instr.encN 0 (.n32 300#32)).wellFormed .n32 = true ∧ (Instr.encN 0 (.n64 300#64)).wellFormed .n64 = true ∧
      (Instr.dec8 ⟨0, 0⟩).wellFormed .n32 = true := by decide

theorem witness_DecodedOperationCarriesItsPorts :
    decode .n64 ⟨0b0001#4, 0xFFFF#128, 3, 5, 6⟩ = .ok (.enc16 3 0xFFFF#16) ∧
      (⟨0b0001#4, 0xFFFF#128, 3, 5, 6⟩ : Ports).isDecode = false ∧
      decode .n64 ⟨0b1001#4, 0xFFFF#128, 3, 5, 6⟩ = .ok (.dec16 ⟨5, 6⟩) ∧
      (⟨0b1001#4, 0xFFFF#128, 3, 5, 6⟩ : Ports).isDecode = true := ⟨rfl, rfl, rfl, rfl⟩

theorem witness_StepRunsTheDecodedOperation :
    let r : Request := ⟨encode (.dec32 ⟨0, 3⟩), 1⟩
    let rest : List Request := [⟨encode (.enc8 2 0#8), 0⟩]
    (presenting (r :: rest)).queue = r :: rest ∧ decode .n64 r.ports = .ok (.dec32 ⟨0, 3⟩) ∧
      conflictsWithAny .n64 (presenting (r :: rest)).mem (.dec32 ⟨0, 3⟩) (presenting (r :: rest)).mem (rest.take r.overlap) = false :=
  ⟨rfl, rfl, by decide⟩

theorem witness_StepIdlesWithNothingPresented : State.reset.queue = [] := rfl

theorem witness_OverlapOnTheSameBytesIsRefused :
    let r : Request := ⟨encode (.dec32 ⟨0, 3⟩), 1⟩
    let rest : List Request := [⟨encode (.enc8 1 0#8), 0⟩]
    (presenting (r :: rest)).queue = r :: rest ∧ decode .n64 r.ports = .ok (.dec32 ⟨0, 3⟩) ∧
      refusalIn (step (presenting (r :: rest))) = some .aliasedBuffer := ⟨rfl, rfl, by decide⟩

theorem witness_LoneWellFormedRequestCompletes :
    let r : Request := ⟨encode (.enc8 1 255#8), 0⟩
    (presenting [r]).queue = [r] ∧ r.overlap = 0 ∧ r.ports.wellFormed (presenting [r]).native = true := by decide

theorem witness_ShiftsAreLogicalAndTruncating : (7 : Nat) < 8 ∧ (0 : Nat) < 8 ∧ (126 : Nat) < 128 := by decide

theorem witness_LeadingZerosAndSignificantBits :
    (0#8).toNat = 0 ∧ (1#8).toNat ≠ 0 ∧ 1 ≤ (0xFF#8).toNat ∧ (1 : Nat) ≤ 8 := by decide

theorem witness_GroupCountIsCeilingOfSevenths :
    (1 : Nat) ≤ Width.w128.bits ∧ (128 : Nat) ≤ Width.w128.bits ∧ (1 : Nat) ≤ 19 := by decide

theorem witness_GroupLanesAndByteHelpers : 1 ≤ maxGroups .w8 ∧ 18 ≤ maxGroups .w128 ∧ 0 ≤ maxGroups .w8 := by decide

theorem witness_GroupsTileTheValue :
    groupCount (sigBits 128#8) ≤ 2 ∧ 1 ≤ (128#8).toNat ∧ groupCount (sigBits 0#8) ≤ 1 := by decide

theorem witness_EncoderWritesTheCanonicalBytes : (holding32 []).native = .n32 ∧ (holding []).native = .n64 := by decide

theorem witness_EncodingIsTheShortestAndUnique :
    let m := (holding [0xAC#8, 0x02#8]).mem
    (∀ j, j < 1 → 128 ≤ (m.read (0 + j)).toNat) ∧ (m.read (0 + 1)).toNat < 128 ∧ groupSum m 0 2 = (300#32).toNat ∧
      2 ≤ maxLen .w32 := by decide

theorem witness_OnlyTheLastByteEndsTheEncoding : lenOf (300#32).toNat = 2 ∧ (0 : Nat) + 1 < lenOf (300#32).toNat := by
  decide

theorem witness_EncoderWritesOnlyItsOwnBytes : lenOf (127#8).toNat = 1 ∧ maxLen .w8 ≤ 2 := by decide

theorem witness_EncoderIsAFunctionOfItsValue : (0 : Nat) < lenOf (0#8).toNat := by decide

theorem witness_EncodingsAreInjectiveAndPrefixFree :
    (255#8).toNat = (255#128).toNat ∧
      (nextOf (exec (.enc8 0 255#8) (holding []))).map (fun t => bytesAt t.mem 0 2) =
        (nextOf (exec (.enc128 0 255#128) (holding [0x01#8]))).map (fun t => bytesAt t.mem 0 2) := by decide +kernel

theorem witness_Enc8LengthsAndCornerCases : (127#8).toNat < 2 ^ 7 ∧ 2 ^ 7 ≤ (128#8).toNat ∧ 2 ^ 7 ≤ (255#8).toNat := by
  decide

theorem witness_Enc16LengthsAndCornerCases :
    (2 ^ (7 * (2 - 1)) ≤ (0x3FFF#16).toNat ∧ (0x3FFF#16).toNat < 2 ^ (7 * 2)) ∧ 2 ^ 14 ≤ (0x4000#16).toNat := by decide

theorem witness_Enc32LengthsAndCornerCases :
    (2 ^ (7 * (4 - 1)) ≤ (0xFFFFFFF#32).toNat ∧ (0xFFFFFFF#32).toNat < 2 ^ (7 * 4)) ∧ 2 ^ 28 ≤ (0x10000000#32).toNat := by
  decide

theorem witness_Enc64LengthsAndCornerCases :
    (2 ^ (7 * (9 - 1)) ≤ (0x7FFFFFFFFFFFFFFF#64).toNat ∧ (0x7FFFFFFFFFFFFFFF#64).toNat < 2 ^ (7 * 9)) ∧
      2 ^ 63 ≤ (0x8000000000000000#64).toNat := by decide

theorem witness_Enc128LengthsAndCornerCases :
    (2 ^ (7 * (18 - 1)) ≤ (0x3FFFFFFFFFFFFFFFFFFFFFFFFFFFFFFF#128).toNat ∧
      (0x3FFFFFFFFFFFFFFFFFFFFFFFFFFFFFFF#128).toNat < 2 ^ (7 * 18)) ∧
      2 ^ 126 ≤ (0x40000000000000000000000000000000#128).toNat := by decide

theorem witness_NativeEncoderIsTheSelectedWidth : (holding32 []).native = .n32 ∧ (holding []).native = .n64 := by decide

theorem witness_NativeOperandOfTheOtherWidthIsUnreachable :
    (NativeValue.n32 300#32).native ≠ (holding []).native ∧
      refusalIn (exec (.encN 0 (.n32 300#32)) (holding [])) = some .nativeWidthMismatch := by decide

theorem witness_DecoderLoopTakesItsTestsInOrder : maxGroups .w8 ≤ maxGroups .w8 ∧ 0 ≤ maxGroups .w128 := by decide

theorem witness_ExcessBitsAreDroppedNotReported :
    let s := holding [0xFF#8, 0x7F#8]
    let t := holding [0xFF#8, 0x81#8]
    let view : InView := ⟨0, 2⟩
    maxLen .w8 ≤ view.len ∧ (∀ i, i < maxGroups .w8 → s.mem.continuesAt view i) ∧
      s.mem.terminatesAt view (maxGroups .w8) ∧ (∀ i, i < maxGroups .w8 → t.mem.continuesAt view i) ∧
      t.mem.continuesAt view (maxGroups .w8) := by
  unfold Memory.continuesAt Memory.terminatesAt; decide

theorem witness_TrailingBytesAreIgnored :
    let s := holding [0xAC#8, 0x02#8, 0x80#8]
    let t := holding [0xAC#8, 0x02#8, 0x55#8]
    let view : InView := ⟨0, 3⟩
    s.mem.holdsEncoding view.base (300#32).toNat ∧ lenOf (300#32).toNat ≤ view.len ∧
      Returns .w32 (.ok 300 2) s (exec (decOf .w32 view) s) ∧ examined .w32 s.mem view = 2 ∧
      (∀ i, i < 2 → t.mem.read (view.base + i) = s.mem.read (view.base + i)) :=
  ⟨by unfold Memory.holdsEncoding; decide, by decide, returns_iff.mpr (by decide), by decide, by decide⟩

theorem witness_PaddedInputIsAccepted :
    let m := (holding [0xAC#8, 0x82#8, 0x00#8]).mem
    lenOf (300#32).toNat < maxLen .w32 ∧ lenOf (300#32).toNat < 3 ∧
      (∀ i, i < lenOf (300#32).toNat → (m.read (0 + i)).toNat = groupOf (300#32).toNat i + 128) ∧
      m.read (0 + lenOf (300#32).toNat) = 0x00#8 := by decide

theorem witness_DecoderHasNoSideEffects :
    let s := holding [0xAC#8, 0x02#8]
    let t := holding [0x07#8, 0x07#8, 0x07#8, 0xAC#8, 0x02#8]
    s.native = t.native ∧ ∀ i, i < 2 → s.mem.read (0 + i) = t.mem.read (3 + i) := by decide

theorem witness_DecodeOfAnEncodingGivesTheValueBack :
    (nextOf (exec (.enc32 4 300#32) (holding []))).map (fun t => bytesAt t.mem 4 2) =
      some (bytesAt (holding [0xAC#8, 0x02#8]).mem 0 2) ∧ lenOf (300#32).toNat = 2 := by decide

theorem witness_TwoStepsRoundTrip :
    let s := presenting [⟨encode (encOf .w32 8 300#32), 0⟩, ⟨encode (decOf .w32 ⟨8, 4⟩), 0⟩]
    lenOf (300#32).toNat ≤ 4 ∧ s.queue = ⟨encode (encOf .w32 8 300#32), 0⟩ :: ⟨encode (decOf .w32 ⟨8, 4⟩), 0⟩ :: [] :=
  ⟨by decide, rfl⟩

theorem witness_ResultIsStableUnderExtension :
    let s := holding [0xAC#8, 0x02#8]
    let t := holding [0xAC#8, 0x02#8, 0x07#8]
    (DecodeResult.ok 300 2 : DecodeResult 32) ≠ .err .insufficient ∧
      (∀ i, i < 2 → t.mem.read (0 + i) = s.mem.read (0 + i)) ∧
      Returns .w32 (.ok 300 2) s (exec (decOf .w32 ⟨0, 2⟩) s) := ⟨by decide, by decide, returns_iff.mpr (by decide)⟩

/-- X2 keeps the value at every width, X3 drops excess bits at width 8. -/
theorem witness_WiderDecoderAgrees :
    let s := holding [0xFF#8, 0x01#8]
    let t := holding [0xFF#8, 0x7F#8]
    Width.w8.bits < Width.w128.bits ∧ Returns .w8 (.ok 255 2) s (exec (decOf .w8 ⟨0, 2⟩) s) ∧
      noExcessBits .w8 s.mem ⟨0, 2⟩ 2 ∧ Returns .w8 (.ok 255 2) t (exec (decOf .w8 ⟨0, 2⟩) t) ∧
      ¬ noExcessBits .w8 t.mem ⟨0, 2⟩ 2 :=
  ⟨by decide, returns_iff.mpr (by decide), by unfold noExcessBits; decide, returns_iff.mpr (by decide),
    by unfold noExcessBits; decide⟩

/-- The clauses of DEC8 at their boundaries: n = 0, n = 1, two continuation bytes, a terminal byte at index 0 and 1. -/
theorem witness_Dec8ErrorsAndCornerCases :
    let s := holding [0x80#8, 0x80#8]
    let t := holding [0x80#8, 0x01#8]
    s.mem.continuesAt ⟨0, 1⟩ 0 ∧ s.mem.continuesAt ⟨0, 2⟩ 0 ∧ s.mem.continuesAt ⟨0, 2⟩ 1 ∧
      t.mem.terminatesAt ⟨1, 1⟩ 0 ∧ (∀ i, i < 1 → t.mem.continuesAt ⟨0, 2⟩ i) ∧ t.mem.terminatesAt ⟨0, 2⟩ 1 := by
  unfold Memory.continuesAt Memory.terminatesAt; decide

/-- n = MAXGROUPS and n = MAXLEN continuation bytes, and a terminal byte at the last permissible index and before it. -/
theorem witness_Dec16ErrorsAndCornerCases :
    let s := holding (List.replicate 3 0x80#8)
    let t := holding (List.replicate 2 0x80#8 ++ [0x02#8])
    (∀ i, i < 2 → s.mem.continuesAt ⟨0, 2⟩ i) ∧ (∀ i, i < 3 → s.mem.continuesAt ⟨0, 3⟩ i) ∧
      (∀ i, i < 2 → t.mem.continuesAt ⟨0, 3⟩ i) ∧ t.mem.terminatesAt ⟨0, 3⟩ 2 ∧
      (∀ i, i < 1 → t.mem.continuesAt ⟨1, 2⟩ i) ∧ t.mem.terminatesAt ⟨1, 2⟩ 1 := by
  unfold Memory.continuesAt Memory.terminatesAt; decide

theorem witness_Dec32ErrorsAndCornerCases :
    let s := holding (List.replicate 5 0x80#8)
    let t := holding (List.replicate 4 0x80#8 ++ [0x08#8])
    (∀ i, i < 4 → s.mem.continuesAt ⟨0, 4⟩ i) ∧ (∀ i, i < 5 → s.mem.continuesAt ⟨0, 5⟩ i) ∧
      (∀ i, i < 4 → t.mem.continuesAt ⟨0, 5⟩ i) ∧ t.mem.terminatesAt ⟨0, 5⟩ 4 ∧
      (∀ i, i < 3 → t.mem.continuesAt ⟨1, 4⟩ i) ∧ t.mem.terminatesAt ⟨1, 4⟩ 3 := by
  unfold Memory.continuesAt Memory.terminatesAt; decide

theorem witness_Dec64ErrorsAndCornerCases :
    let s := holding (List.replicate 10 0x80#8)
    let t := holding (List.replicate 9 0x80#8 ++ [0x01#8])
    (∀ i, i < 9 → s.mem.continuesAt ⟨0, 9⟩ i) ∧ (∀ i, i < 10 → s.mem.continuesAt ⟨0, 10⟩ i) ∧
      (∀ i, i < 9 → t.mem.continuesAt ⟨0, 10⟩ i) ∧ t.mem.terminatesAt ⟨0, 10⟩ 9 ∧
      (∀ i, i < 8 → t.mem.continuesAt ⟨1, 9⟩ i) ∧ t.mem.terminatesAt ⟨1, 9⟩ 8 := by
  unfold Memory.continuesAt Memory.terminatesAt; decide

theorem witness_Dec128ErrorsAndCornerCases :
    let s := holding (List.replicate 19 0x80#8)
    let t := holding (List.replicate 18 0x80#8 ++ [0x02#8])
    (∀ i, i < 18 → s.mem.continuesAt ⟨0, 18⟩ i) ∧ (∀ i, i < 19 → s.mem.continuesAt ⟨0, 19⟩ i) ∧
      (∀ i, i < 18 → t.mem.continuesAt ⟨0, 19⟩ i) ∧ t.mem.terminatesAt ⟨0, 19⟩ 18 ∧
      (∀ i, i < 17 → t.mem.continuesAt ⟨1, 18⟩ i) ∧ t.mem.terminatesAt ⟨1, 18⟩ 17 := by
  unfold Memory.continuesAt Memory.terminatesAt; decide

theorem witness_NativeDecoderIsTheSelectedWidth :
    (holding32 []).native = .n32 ∧ (holding []).native = .n64 ∧
      bytesAt (holding32 (List.replicate 5 0x80#8)).mem 0 5 = List.replicate 5 0x80#8 ∧
      bytesAt (holding [0xAC#8, 0x02#8]).mem 0 2 = [0xAC#8, 0x02#8] := by decide

/-- The lists of bytes a BytesDecodeTo clause speaks about stand in a state. -/
theorem witness_bytes_stand_in_a_state :
    bytesAt (holding (List.replicate 18 0xFF#8 ++ [0x7F#8])).mem 0 19 = List.replicate 18 0xFF#8 ++ [0x7F#8] := by decide

theorem witness_StepKeepsMemoryCanonical :
    let s := presenting [⟨encode (.enc32 1 300#32), 0⟩]
    StateInv s ∧ (nextOf (step s)).isSome = true := by unfold StateInv; decide

theorem witness_StepKeepsTheStaticParameters :
    (nextOf (step (presenting [⟨encode (.enc32 1 300#32), 0⟩]))).isSome = true := by decide

theorem witness_NoOperationSeesAnotherButThroughMemory :
    let s := presenting [⟨encode (.enc32 1 300#32), 0⟩]
    let s' : State := { s with queue := [], response := .len 4 }
    s.mem = s'.mem ∧ s.native = s'.native ∧ (nextOf (exec (.dec8 ⟨0, 2⟩) s)).isSome = true := by decide

theorem witness_DisjointOperationsAreIndependent :
    let s := presenting []
    StateInv s ∧ (Instr.dec32 ⟨0, 3⟩).wellFormed s.native = true ∧ (Instr.enc8 2 0#8).wellFormed s.native = true ∧
      conflicts s.native s.mem (.dec32 ⟨0, 3⟩) s.mem (.enc8 2 0#8) = false ∧
      conflicts s.native s.mem (.enc32 0 300#32) s.mem (.enc8 2 0#8) = false := by unfold StateInv; decide

/-- P5: 2^35 is too long for 32 bits, 0x3FFF fits 8 bits in length. -/
theorem witness_NarrowDecodeOfAWiderEncoding :
    let s := holding (List.replicate 5 0x80#8 ++ [0x01#8])
    let t := holding [0xFF#8, 0x7F#8]
    s.mem.holdsEncoding 0 (0x800000000#64).toNat ∧ maxLen .w32 < lenOf (0x800000000#64).toNat ∧
      t.mem.holdsEncoding 0 (0x3FFF#16).toNat ∧ lenOf (0x3FFF#16).toNat ≤ maxLen .w8 := by
  unfold Memory.holdsEncoding; decide

end Sys2Proof.Tests
end

section
/-! PROOFS. The scope family (spec/00_scope.md): the per-width constants of R6 to R8 and R91. -/

namespace Sys2Proof.Machine

/-- R6: MAXLEN_W is W/7 rounded up, because the width lies above MAXGROUPS_W whole groups and within one group more. -/
theorem maxLen_eq_ceil (W : Width) : maxLen W = (W.bits + 6) / 7 := by
  have above : 7 * maxGroups W < W.bits := shift_lt_width W
  have within : W.bits ≤ 7 * maxLen W := width_le_groups W
  have oneMore : maxLen W = maxGroups W + 1 := maxLen_eq W
  omega

/-- R7: the last index the decoder may examine, counted from zero. -/
theorem maxGroups_eq_pred_maxLen (W : Width) : maxGroups W = maxLen W - 1 :=
  Nat.eq_sub_of_add_eq (maxLen_eq W).symm

/-- R8: whatever the headroom (log 4), the destination buffer holds the longest encoding. -/
theorem maxLen_le_bufCap (W : Width) : maxLen W ≤ bufCap W :=
  Nat.le_add_right (maxLen W) (Config.bufHeadroom W)

/-- Settles O11: the numerals by evaluation of the two tables, the bounds at every width from the laws of the constants. -/
theorem widthConstants : Obligations.WidthConstants := by
  unfold Obligations.WidthConstants
  refine ⟨?maxLens, ?maxGroups, fun W => ?bounds⟩
  case maxLens => decide
  case maxGroups => decide
  case bounds =>
    exact ⟨maxLen_eq_ceil W, maxGroups_eq_pred_maxLen W, shift_lt_width W, maxLen_le_bufCap W⟩

end Sys2Proof.Machine
end

section
/-! PROOFS. The shift-and-mask network family (spec/40_shift_mask_network.md): shifts, counting, group lanes. -/

namespace Sys2Proof.Machine

variable {w : Nat}

/-! ### Leading zeros against the logarithm (R87, R88) -/

/-- D17: with a set bit above, the value would not be zero. -/
theorem clzW_of_toNat_eq_zero {v : BitVec w} (hv : v.toNat = 0) : clzW v = w := by
  refine le_antisymm (clzW_le v) (le_of_not_gt fun hlt => ?_)
  have topBit : 2 ^ (w - clzW v - 1) ≤ v.toNat := le_toNat_clzW v hlt
  have pos : 0 < 2 ^ (w - clzW v - 1) := Nat.two_pow_pos _
  omega

theorem clzW_lt_of_toNat_ne_zero {v : BitVec w} (hv : v.toNat ≠ 0) : clzW v < w := by
  refine lt_of_not_ge fun hle => hv ?_
  have below : v.toNat < 2 ^ (w - clzW v) := toNat_lt_clzW v
  rw [Nat.sub_eq_zero_of_le hle] at below
  exact Nat.lt_one_iff.mp below

/-- The top set bit stands right below the leading zeros. -/
theorem log2_toNat_eq {v : BitVec w} (hv : v.toNat ≠ 0) : Nat.log2 v.toNat = w - clzW v - 1 := by
  have hlt : clzW v < w := clzW_lt_of_toNat_ne_zero hv
  have above : w - clzW v - 1 + 1 = w - clzW v := by omega
  refine (Nat.log2_eq_iff hv).mpr ⟨le_toNat_clzW v hlt, ?_⟩
  rw [above]
  exact toNat_lt_clzW v

theorem clzW_of_toNat_ne_zero {v : BitVec w} (hv : v.toNat ≠ 0) : clzW v = w - 1 - Nat.log2 v.toNat := by
  have hlt : clzW v < w := clzW_lt_of_toNat_ne_zero hv
  have top : Nat.log2 v.toNat = w - clzW v - 1 := log2_toNat_eq hv
  omega

theorem sigBits_of_toNat_eq_zero {v : BitVec w} (hv : v.toNat = 0) : sigBits v = 1 := by
  rw [sigBits_eq, significantBits, if_pos hv]

theorem sigBits_of_toNat_ne_zero {v : BitVec w} (hv : v.toNat ≠ 0) : sigBits v = Nat.log2 v.toNat + 1 := by
  rw [sigBits_eq, significantBits, if_neg hv]

/-- Settles O13: the two shapes of a value, zero and with a top set bit, at every width; the examples by evaluation. -/
theorem leadingZerosAndSignificantBits : Obligations.LeadingZerosAndSignificantBits := by
  unfold Obligations.LeadingZerosAndSignificantBits
  refine ⟨fun w v => ⟨clzW_of_toNat_eq_zero, clzW_of_toNat_ne_zero, rfl, ?range, sigBits_of_toNat_eq_zero, ?nonzero⟩,
    ?examples⟩
  case range => exact fun hw => ⟨one_le_sigBits v, sigBits_le v hw⟩
  case nonzero => exact fun hv => sigBits_of_toNat_ne_zero (Nat.one_le_iff_ne_zero.mp hv)
  case examples => decide

/-! ### Shifts (R83, R84) -/

/-- Settles O12: from the arithmetic of the two shifts, which holds at every shift amount; the examples by evaluation. -/
theorem shiftsAreLogicalAndTruncating : Obligations.ShiftsAreLogicalAndTruncating := by
  unfold Obligations.ShiftsAreLogicalAndTruncating
  refine ⟨fun w v s _ => ⟨shrW_toNat v s, shlW_toNat v s⟩, ?examples⟩
  case examples => decide

/-! ### The number of groups (R89) -/

/-- k groups hold the bits and k − 1 groups do not. -/
theorem groupCount_eq_iff {b k : Nat} (hb : 1 ≤ b) (hk : 1 ≤ k) :
    groupCount b = k ↔ 7 * (k - 1) < b ∧ b ≤ 7 * k := by
  have atMost : groupCount b ≤ k ↔ b ≤ 7 * k := groupCount_le_iff hk
  have atLeast : k ≤ groupCount b ↔ 7 * (k - 1) < b := by unfold groupCount; omega
  rw [← atMost, ← atLeast, and_comm]
  exact le_antisymm_iff

/-- No value needs more bytes than MAXLEN_W. -/
theorem groupCount_le_maxLen {W : Width} {b : Nat} (hb : b ≤ W.bits) : groupCount b ≤ maxLen W :=
  (groupCount_le_iff (one_le_maxLen W)).mpr (hb.trans (width_le_groups W))

/-- Settles O14: the closed form is the definition; the class table and the bound are the two lemmas above. -/
theorem groupCountIsCeilingOfSevenths : Obligations.GroupCountIsCeilingOfSevenths := by
  unfold Obligations.GroupCountIsCeilingOfSevenths
  refine ⟨fun b => rfl, fun b k => groupCount_eq_iff, ?bound, ?examples⟩
  case bound => exact fun W b _ hb => ⟨one_le_groupCount b, groupCount_le_maxLen hb⟩
  case examples => decide

/-! ### Group lanes and byte helpers (R90, R92, R93) -/

/-- Settles O15: from the arithmetic of each primitive, every width being at least a byte wide (so that the group of a byte
is widened without change of value, R90); the examples by evaluation. -/
theorem groupLanesAndByteHelpers : Obligations.GroupLanesAndByteHelpers := by
  unfold Obligations.GroupLanesAndByteHelpers
  refine ⟨?extract, ?insert, setC_toNat, ?bytes, ?examples⟩
  case extract => exact fun W v i _ => extract7_toNat v i
  case insert => exact fun W num b i _ => insert7_toNat num b i (width_ge_8 W)
  case bytes => exact fun b => ⟨clrC_toNat b, isLast_iff b⟩
  case examples => decide

end Sys2Proof.Machine
end

section
/-! PROOFS. The encoder family (spec/41_encoder.md): what an encoder operation writes and returns, its lengths by value, and
its codes and corner cases width by width. -/

namespace Sys2Proof.Machine

variable {w : Nat} {m m' : Memory} {base base' x i k : Nat}

/-! ### The code of an encoder operation (R72) -/

/-- A port that carries a number of w bits gives it back as VALUE. -/
theorem valueOfWidth_of_port (hw : w ≤ 128) {v : BitVec w} {p : Ports} (hp : p.value = v.setWidth 128) :
    valueOfWidth w p = .ok v := by
  have fits : p.value.toNat < 2 ^ w := hp ▸ Laws.EncodedPorts.setWidth_fits hw v
  have back : (v.setWidth 128).setWidth w = v := by
    rw [BitVec.setWidth_setWidth_of_le v hw, BitVec.setWidth_eq]
  rw [valueOfWidth, if_pos fits, hp, back]

/-- ENC8 to ENC128 decode from the ports that present them, under both settings of NATIVE_W. -/
theorem decode_encode_encOf (W : Width) (n : NativeWidth) (obuf : Nat) (v : BitVec W.bits) :
    decode n (encode (encOf W obuf v)) = .ok (encOf W obuf v) := by
  have value (p : Ports) (hp : p.value = v.setWidth 128) : valueOfWidth W.bits p = .ok v :=
    valueOfWidth_of_port (by cases W <;> decide) hp
  cases W <;> exact congrArg (Except.map _) (value _ rfl)

/-! ### The effect of the six operations (R101) -/

theorem exec_encOf_encodes (W : Width) (obuf : Nat) (v : BitVec W.bits) (s : State) :
    Encodes v.toNat obuf s (exec (encOf W obuf v) s) := by
  rw [exec_encOf]
  exact encodeOp_encodes v obuf s

theorem exec_encNativeOf_encodes {n : NativeWidth} (hn : s.native = n) (obuf : Nat) (v : BitVec n.width.bits) :
    Encodes v.toNat obuf s (exec (encNativeOf n obuf v) s) := by
  rw [exec_encNativeOf hn]
  exact encodeOp_encodes v obuf s

/-- Settles O17: each of the six operations is the one shared operation at its width, ENCN at the width NATIVE_W names. -/
theorem encoderWritesTheCanonicalBytes : Obligations.EncoderWritesTheCanonicalBytes := by
  unfold Obligations.EncoderWritesTheCanonicalBytes
  intro s obuf
  refine ⟨?enc8, ?enc16, ?enc32, ?enc64, ?enc128, ?encN32, ?encN64⟩
  case enc8 => exact fun v => exec_encOf_encodes .w8 obuf v s
  case enc16 => exact fun v => exec_encOf_encodes .w16 obuf v s
  case enc32 => exact fun v => exec_encOf_encodes .w32 obuf v s
  case enc64 => exact fun v => exec_encOf_encodes .w64 obuf v s
  case enc128 => exact fun v => exec_encOf_encodes .w128 obuf v s
  case encN32 => exact fun hn v => exec_encNativeOf_encodes hn obuf v
  case encN64 => exact fun hn v => exec_encNativeOf_encodes hn obuf v

/-! ### The bytes of a memory that holds an encoding (R103, R112) -/

theorem getLsbD_seven_iff : ∀ b : Byte, b.getLsbD 7 = true ↔ ¬ b.toNat < 128 := by decide

/-- R103: among the bytes of an encoding the high bit is set in all but the last. -/
theorem Memory.holdsEncoding.highBit_iff (h : m.holdsEncoding base x) (hi : i < lenOf x) :
    (m.read (base + i)).getLsbD 7 = true ↔ i + 1 ≠ lenOf x := by
  rw [getLsbD_seven_iff, h i hi, encodedByte_lt_iff hi]

/-- R112: the bytes of an encoding depend on the number alone. -/
theorem Memory.holdsEncoding.read_eq (h : m.holdsEncoding base x) (h' : m'.holdsEncoding base' x) (hi : i < lenOf x) :
    m.read (base + i) = m'.read (base' + i) :=
  BitVec.eq_of_toNat_eq ((h i hi).trans (h' i hi).symm)

/-- R112: bytes written over the same bytes, and nothing written elsewhere, leave every byte of memory as it was. -/
theorem Memory.holdsEncoding.read_of_rewrite (h : m.holdsEncoding base x) (h' : m'.holdsEncoding base x)
    (outside : ∀ a, ¬ (base ≤ a ∧ a < base + lenOf x) → m'.read a = m.read a) (a : Nat) : m'.read a = m.read a := by
  by_cases inside : base ≤ a ∧ a < base + lenOf x
  · obtain ⟨i, rfl⟩ := Nat.exists_eq_add_of_le inside.1
    exact h'.read_eq h (by omega)
  · exact outside a inside

/-- Settles O19: from the high bits of the bytes that an encoder operation leaves in OBUF. -/
theorem onlyTheLastByteEndsTheEncoding : Obligations.OnlyTheLastByteEndsTheEncoding := by
  unfold Obligations.OnlyTheLastByteEndsTheEncoding
  intro W obuf v s
  obtain ⟨t, ht, len, bytes, -⟩ := exec_encOf_encodes W obuf v s
  have pos : 1 ≤ lenOf v.toNat := one_le_lenOf v.toNat
  refine ⟨t, lenOf v.toNat, ht, len, fun i hi => ?others, ?last⟩
  case others => exact (bytes.highBit_iff (by omega)).mpr (by omega)
  case last =>
    refine Bool.eq_false_iff.mpr fun set => ?_
    have notLast := (bytes.highBit_iff (by omega)).mp set
    omega

/-- Settles O22: three runs of the operation, the third in the state the first one left. -/
theorem encoderIsAFunctionOfItsValue : Obligations.EncoderIsAFunctionOfItsValue := by
  unfold Obligations.EncoderIsAFunctionOfItsValue
  intro W obuf obuf' v s s'
  obtain ⟨t, ht, len, bytes, -⟩ := exec_encOf_encodes W obuf v s
  obtain ⟨t', ht', len', bytes', -⟩ := exec_encOf_encodes W obuf' v s'
  obtain ⟨t'', ht'', len'', bytes'', outside, -⟩ := exec_encOf_encodes W obuf v t
  exact ⟨t, t', t'', lenOf v.toNat, ht, ht', len, len', fun i hi => bytes.read_eq bytes' hi, ht'', len'',
    bytes.read_of_rewrite bytes'' outside⟩

/-! ### Lengths by value, and the last byte (R102, R106 to R110) -/

theorem lenOf_eq_one (h : x < 2 ^ 7) : lenOf x = 1 :=
  le_antisymm ((lenOf_le_iff le_rfl).mpr h) (one_le_lenOf x)

theorem lenOf_eq (hk : 2 ≤ k) (lower : 2 ^ (7 * (k - 1)) ≤ x) (upper : x < 2 ^ (7 * k)) : lenOf x = k := by
  have atMost : lenOf x ≤ k := (lenOf_le_iff (by omega)).mpr upper
  have more : ¬ lenOf x ≤ k - 1 := fun h => Nat.not_lt.mpr lower ((lenOf_le_iff (by omega)).mp h)
  omega

/-- The last byte of an encoding is all that lies above the groups before it. -/
theorem encodedByte_last_eq_div (h : lenOf x = k + 1) : encodedByte x k = x / 2 ^ (7 * k) := by
  have below : x < 2 ^ (7 * k) * 128 := by
    have := lt_two_pow_lenOf x
    rwa [h, Nat.mul_add, pow_add] at this
  rw [encodedByte, if_pos h.symm, groupOf, Nat.mod_eq_of_lt (Nat.div_lt_of_lt_mul below)]

/-- R107 to R110, at every width: the length by value; when all MAXLEN_W bytes are needed, the last one is the value bits
from 7·MAXGROUPS_W up, and they are not zero. -/
theorem exec_encOf_lengths (W : Width) (obuf : Nat) (v : BitVec W.bits) (s : State) :
    ∃ t len, exec (encOf W obuf v) s = .next t ∧ t.response = .len len ∧
      (v.toNat < 2 ^ 7 → len = 1) ∧
      (∀ k, 2 ≤ k → k ≤ maxGroups W → 2 ^ (7 * (k - 1)) ≤ v.toNat → v.toNat < 2 ^ (7 * k) → len = k) ∧
      (2 ^ (7 * maxGroups W) ≤ v.toNat → len = maxLen W ∧
        (t.mem.read (obuf + maxGroups W)).toNat = v.toNat / 2 ^ (7 * maxGroups W) ∧
        1 ≤ v.toNat / 2 ^ (7 * maxGroups W) ∧
        v.toNat / 2 ^ (7 * maxGroups W) ≤ 2 ^ (W.bits - 7 * maxGroups W) - 1) := by
  obtain ⟨t, ht, len, bytes, -⟩ := exec_encOf_encodes W obuf v s
  refine ⟨t, lenOf v.toNat, ht, len, lenOf_eq_one, fun k hk _ => lenOf_eq hk, fun lower => ?longest⟩
  have groups : 1 ≤ maxGroups W := by cases W <;> decide
  have fits : v.toNat < 2 ^ (7 * (maxGroups W + 1)) := by
    rw [← maxLen_eq]
    exact v.isLt.trans_le (Nat.pow_le_pow_right (by decide) (width_le_groups W))
  have longest : lenOf v.toNat = maxGroups W + 1 := lenOf_eq (by omega) lower fits
  have top : v.toNat < 2 ^ (7 * maxGroups W) * 2 ^ (W.bits - 7 * maxGroups W) := by
    rw [← pow_add, Nat.add_sub_cancel' (shift_lt_width W).le]
    exact v.isLt
  refine ⟨longest.trans (maxLen_eq W).symm, ?byte, ?nonzero, ?bounded⟩
  case byte => rw [bytes _ (by omega), encodedByte_last_eq_div longest]
  case nonzero => exact Nat.div_pos lower (Nat.two_pow_pos _)
  case bounded => exact Nat.le_sub_one_of_lt (Nat.div_lt_of_lt_mul top)

/-! ### The operations width by width (R107 to R110) -/

/-- Settles O25: code, effect and lengths at 16 bits; the corner cases from their lists of bytes. -/
theorem enc16LengthsAndCornerCases : Obligations.Enc16LengthsAndCornerCases := by
  unfold Obligations.Enc16LengthsAndCornerCases
  refine ⟨decode_encode_encOf .w16, fun s obuf => ⟨fun v => exec_encOf_encodes .w16 obuf v s,
    fun v => exec_encOf_lengths .w16 obuf v s, ?zero, ?twoBytes, ?threeBytes, ?greatest⟩⟩
  all_goals exact encodesBytes_of_list (by decide) (by decide)

/-- Settles O26: code, effect and lengths at 32 bits; the corner cases from their lists of bytes. -/
theorem enc32LengthsAndCornerCases : Obligations.Enc32LengthsAndCornerCases := by
  unfold Obligations.Enc32LengthsAndCornerCases
  refine ⟨decode_encode_encOf .w32, fun s obuf => ⟨fun v => exec_encOf_encodes .w32 obuf v s,
    fun v => exec_encOf_lengths .w32 obuf v s, ?zero, ?fourBytes, ?fiveBytes, ?greatest, ?worked⟩⟩
  all_goals exact encodesBytes_of_list (by decide) (by decide)

/-- Settles O27: code, effect and lengths at 64 bits; the corner cases from their lists of bytes. -/
theorem enc64LengthsAndCornerCases : Obligations.Enc64LengthsAndCornerCases := by
  unfold Obligations.Enc64LengthsAndCornerCases
  refine ⟨decode_encode_encOf .w64, fun s obuf => ⟨fun v => exec_encOf_encodes .w64 obuf v s,
    fun v => exec_encOf_lengths .w64 obuf v s, ?zero, ?nineBytes, ?tenBytes, ?greatest⟩⟩
  all_goals exact encodesBytes_of_list (by decide) (by decide)

/-- Settles O28: code, effect and lengths at 128 bits; the corner cases from their lists of bytes. -/
theorem enc128LengthsAndCornerCases : Obligations.Enc128LengthsAndCornerCases := by
  unfold Obligations.Enc128LengthsAndCornerCases
  refine ⟨decode_encode_encOf .w128, fun s obuf => ⟨fun v => exec_encOf_encodes .w128 obuf v s,
    fun v => exec_encOf_lengths .w128 obuf v s, ?zero, ?eighteenBytes, ?nineteenBytes, ?greatest, ?topBit⟩⟩
  all_goals exact encodesBytes_of_list (by decide) (by decide)

end Sys2Proof.Machine
end

section
/-! PROOFS. The decoder family (spec/42_decoder.md): the loop, the three results with their conditions, the round trip, and
the codes and corner cases width by width. -/

namespace Sys2Proof.Machine

variable {m m' : Memory} {base base' n x i k : Nat} {view : InView} {s s' : State}

/-! ### The result of a decoder operation is what its view decodes to (R120, R131) -/

theorem returns_exec_decOf_iff {W : Width} {r : DecodeResult W.bits} :
    Returns W r s (exec (decOf W view) s) ↔ decodeView W s.mem view = r := by
  rw [exec_decOf]
  exact returns_iff

/-- R131: the same n bytes, wherever they stand, give the same result, and nothing but the response changes. -/
theorem decodeOp_of_sameBytes (W : Width) (same : ∀ i, i < n → s.mem.read (base + i) = s'.mem.read (base' + i)) :
    ∃ r, decodeOp W ⟨base, n⟩ s = .next { s with response := .result W r } ∧
      decodeOp W ⟨base', n⟩ s' = .next { s' with response := .result W r } :=
  ⟨decodeView W s.mem ⟨base, n⟩, returns_iff.mpr rfl,
    returns_iff.mpr (decodeView_of_bytes (bytesAt_eq_iff.mpr same)).symm⟩

/-! ### Round trip (R132) -/

theorem Memory.holdsEncoding.of_sameReads (h : m.holdsEncoding base x)
    (same : ∀ i, i < lenOf x → m'.read (base' + i) = m.read (base + i)) : m'.holdsEncoding base' x := fun i hi =>
  (congrArg BitVec.toNat (same i hi)).trans (h i hi)

/-- The encoding of a value of W bits, whatever follows it, decodes at width W to the value and its length. -/
theorem decodeView_of_value {W : Width} {v : BitVec W.bits} (h : m.holdsEncoding view.base v.toNat)
    (hn : lenOf v.toNat ≤ view.len) : decodeView W m view = .ok v (lenOf v.toNat) := by
  have fits : lenOf v.toNat ≤ maxLen W := lenOf_le_maxLen W v.isLt
  rw [decodeView_of_encoding h hn fits, BitVec.ofNat_toNat, BitVec.setWidth_eq]

/-- Settles O40: the encode leaves the canonical bytes in OBUF, a view that reads the same holds them too, and those bytes
decode to the value. -/
theorem decodeOfAnEncodingGivesTheValueBack : Obligations.DecodeOfAnEncodingGivesTheValueBack := by
  unfold Obligations.DecodeOfAnEncodingGivesTheValueBack
  intro W obuf v s
  obtain ⟨t, ht, len, bytes, -⟩ := exec_encOf_encodes W obuf v s
  refine ⟨t, lenOf v.toNat, ht, len, fun s' view hn same => ?_⟩
  have copied : s'.mem.holdsEncoding view.base v.toNat := bytes.of_sameReads same
  exact returns_exec_decOf_iff.mpr (decodeView_of_value copied hn)

/-! ### The loop, one iteration at a time (R121 to R123) -/

theorem isLast_iff_highBit_clear (b : Byte) : isLast b = true ↔ b.getLsbD 7 = false := by
  rw [isLast_iff, ← not_iff_not, ← getLsbD_seven_iff, Bool.not_eq_false]

/-- With `left` iterations to go, the group limit stands at index i + left. -/
theorem decodeLoop_step {w : Nat} (m : Memory) (view : InView) (left i : Nat) (num : BitVec w) :
    decodeLoop m view left i num =
      if view.len ≤ i then .err .insufficient
      else if (m.read (view.base + i)).getLsbD 7 = false then .ok (insert7 num (m.read (view.base + i)) i) (i + 1)
      else if left = 0 then .err .overflow
      else decodeLoop m view (left - 1) (i + 1) (insert7 num (m.read (view.base + i)) i) := by
  simp only [← isLast_iff_highBit_clear]
  cases left with
  | zero => rw [decodeLoop, if_pos rfl]
  | succ left => rw [decodeLoop, if_neg left.succ_ne_zero, Nat.add_sub_cancel]

/-- Settles O32: a decode starts the loop at index 0 with the accumulator zero, and the comparison `left = 0` of an iteration
is i = MAXGROUPS_W. -/
theorem decoderLoopTakesItsTestsInOrder : Obligations.DecoderLoopTakesItsTestsInOrder := by
  unfold Obligations.DecoderLoopTakesItsTestsInOrder
  intro W view s
  refine ⟨returns_exec_decOf_iff.mpr rfl, fun i num hi => ?iteration⟩
  case iteration =>
    have limit : maxGroups W - i = 0 ↔ i = maxGroups W := by omega
    rw [decodeLoop_step]
    simp only [limit, Nat.sub_sub]

/-! ### Success (R124, R125) -/

/-- R124: the exact condition of Ok. -/
theorem decodeView_eq_ok_iff {W : Width} {v : BitVec W.bits} {consumed : Nat} :
    decodeView W m view = .ok v consumed ↔
      1 ≤ consumed ∧ consumed ≤ min view.len (maxLen W) ∧ m.terminatesAt view (consumed - 1) ∧
      (∀ i, i < consumed - 1 → m.continuesAt view i) ∧
      v.toNat = groupSum m view.base consumed % 2 ^ W.bits := by
  constructor
  · intro h
    rcases decodeView_cases W m view with ⟨t, ht, htl, last, before, e⟩ | ⟨-, -, e⟩ | ⟨-, -, e⟩ <;> rw [h] at e
    · obtain ⟨rfl, rfl⟩ := DecodeResult.ok.inj e
      exact ⟨by omega, by omega, last, before, BitVec.toNat_ofNat ..⟩
    · exact nomatch e
    · exact nomatch e
  · rintro ⟨pos, bound, last, before, value⟩
    have back : consumed - 1 + 1 = consumed := by omega
    have sum : BitVec.ofNat W.bits (groupSum m view.base consumed) = v :=
      BitVec.eq_of_toNat_eq ((BitVec.toNat_ofNat ..).trans value.symm)
    rw [decodeView_ok (by omega) (by omega) last before, back, sum]

/-- Settles O35: by the exact condition of Ok. -/
theorem successExactlyAtTheFirstTerminalByte : Obligations.SuccessExactlyAtTheFirstTerminalByte := by
  unfold Obligations.SuccessExactlyAtTheFirstTerminalByte
  exact fun W view s v consumed => returns_exec_decOf_iff.trans decodeView_eq_ok_iff

/-- R125: of a sum of groups kept to w bits, the groups below stay whole and the top one keeps the bits that fit. -/
theorem groupSum_succ_mod {w : Nat} (m : Memory) (base : Nat) (hk : 7 * k ≤ w) :
    groupSum m base (k + 1) % 2 ^ w =
      groupSum m base k + (m.read (base + k)).toNat % 128 % 2 ^ (w - 7 * k) * 2 ^ (7 * k) := by
  have below : groupSum m base k < 2 ^ (7 * k) := groupSum_lt m base k
  have split : 2 ^ w = 2 ^ (7 * k) * 2 ^ (w - 7 * k) := by rw [← pow_add, Nat.add_sub_cancel' hk]
  rw [groupSum, split, Nat.mod_mul, Nat.add_mul_mod_self_right, Nat.mod_eq_of_lt below,
    Nat.add_mul_div_right _ _ (Nat.two_pow_pos _), Nat.div_eq_of_lt below, Nat.zero_add, Nat.mul_comm]

/-- How many values the group of byte k can take in the result: all 128 below the last permissible index, and there only
those of the bits that fit (R125). -/
def keptGroupValues (W : Width) (k : Nat) : Nat := if k = maxGroups W then 2 ^ (W.bits - 7 * maxGroups W) else 128

/-- A terminal byte keeps in the sum the part of its group that `keptGroupValues` says. -/
theorem groupSum_terminal_mod {W : Width} (hk : k < maxLen W) (last : m.terminatesAt view k) :
    groupSum m view.base (k + 1) % 2 ^ W.bits =
      groupSum m view.base k + (m.read (view.base + k)).toNat % keptGroupValues W k * 2 ^ (7 * k) := by
  have limit : maxLen W = maxGroups W + 1 := maxLen_eq W
  have fits : 7 * maxGroups W < W.bits := shift_lt_width W
  have group : (m.read (view.base + k)).toNat < 128 := last
  rw [groupSum_succ_mod m view.base (by omega), Nat.mod_eq_of_lt group, keptGroupValues]
  split
  next top => rw [top]
  next below =>
    have room : 2 ^ 7 ≤ 2 ^ (W.bits - 7 * k) := Nat.pow_le_pow_right (by decide) (by omega)
    rw [Nat.mod_eq_of_lt group, Nat.mod_eq_of_lt (group.trans_le room)]

/-- R124, R125: a terminal byte at index k after continuation bytes gives Ok, with the bits of its group that fit. -/
theorem exec_decOf_terminal (W : Width) (s : State) (view : InView) (k : Nat) (hk : k < maxLen W) (hn : k < view.len)
    (before : ∀ i, i < k → s.mem.continuesAt view i) (last : s.mem.terminatesAt view k) :
    ∃ v, Returns W (.ok v (k + 1)) s (exec (decOf W view) s) ∧
      v.toNat = groupSum s.mem view.base k +
        (s.mem.read (view.base + k)).toNat % keptGroupValues W k * 2 ^ (7 * k) :=
  ⟨BitVec.ofNat W.bits (groupSum s.mem view.base (k + 1)),
    returns_exec_decOf_iff.mpr (decodeView_ok hn hk last before),
    (BitVec.toNat_ofNat ..).trans (groupSum_terminal_mod hk last)⟩

/-! ### Errors (R127, R128) -/

theorem exec_decOf_insufficient (W : Width) (s : State) (view : InView) (hn : view.len < maxLen W)
    (before : ∀ i, i < view.len → s.mem.continuesAt view i) :
    Returns W (.err .insufficient) s (exec (decOf W view) s) :=
  returns_exec_decOf_iff.mpr (decodeView_insufficient hn before)

theorem exec_decOf_overflow (W : Width) (s : State) (view : InView) (hn : maxLen W ≤ view.len)
    (before : ∀ i, i < maxLen W → s.mem.continuesAt view i) :
    Returns W (.err .overflow) s (exec (decOf W view) s) :=
  returns_exec_decOf_iff.mpr (decodeView_overflow hn before)

/-- A decode of a list of bytes at a width is computed on one memory that holds them. -/
theorem bytesDecodeTo_decOf {W : Width} {bytes : List Byte} {r : DecodeResult W.bits}
    (h : decodeView W (memoryOf bytes) ⟨0, bytes.length⟩ = r) : BytesDecodeTo (decOf W) bytes W r :=
  bytesDecodeTo_of_memoryOf (fun view s => exec_decOf W view s) h

/-- Settles O36: MAXGROUPS_W is the last permissible index, so a terminal byte there is the case of `exec_decOf_terminal` in
which bits of the group are dropped, and a continuation byte there completes the condition of Overflow. -/
theorem excessBitsAreDroppedNotReported : Obligations.ExcessBitsAreDroppedNotReported := by
  unfold Obligations.ExcessBitsAreDroppedNotReported
  refine ⟨fun W view s hn before => ⟨fun last => ?terminal, fun more => ?continued⟩, ?dropped⟩
  case terminal =>
    have limit : maxLen W = maxGroups W + 1 := maxLen_eq W
    have ok := exec_decOf_terminal W s view (maxGroups W) (by omega) (by omega) before last
    rwa [keptGroupValues, if_pos rfl, ← limit] at ok
  case continued =>
    refine exec_decOf_overflow W s view hn fun i hi => ?_
    rcases Nat.lt_succ_iff_lt_or_eq.mp (maxLen_eq W ▸ hi) with below | rfl
    · exact before i below
    · exact more
  case dropped => exact bytesDecodeTo_decOf (W := .w8) (by decide)

/-- Settles O39: from the same bytes at two places, DECN at the one width both states name. -/
theorem decoderHasNoSideEffects : Obligations.DecoderHasNoSideEffects := by
  unfold Obligations.DecoderHasNoSideEffects
  refine ⟨fun W base base' n s s' same => ?byWidth, fun base base' n s s' native same => ?native⟩
  case byWidth =>
    simp only [exec_decOf]
    exact decodeOp_of_sameBytes W same
  case native =>
    obtain ⟨r, here, there⟩ := decodeOp_of_sameBytes s.native.width same
    have sameWidth : exec (.decN ⟨base', n⟩) s' = decodeOp s.native.width ⟨base', n⟩ s' := by
      rw [exec_decN, native]
    exact ⟨s.native.width, r, rfl, here, sameWidth.trans there⟩

/-! ### The operations width by width (R133 to R137) -/

/-- DEC8 to DEC128 decode from the ports that present them, under both settings of NATIVE_W (R72). -/
theorem decode_encode_decOf (W : Width) (n : NativeWidth) (view : InView) :
    decode n (encode (decOf W view)) = .ok (decOf W view) := by
  cases W <;> rfl

/-- R134 to R137, at every width: when it returns Insufficient, when Overflow, and what it returns with Ok. -/
theorem exec_decOf_results (W : Width) (s : State) (view : InView) :
    (view.len < maxLen W → (∀ i, i < view.len → s.mem.continuesAt view i) →
      Returns W (.err .insufficient) s (exec (decOf W view) s)) ∧
    (maxLen W ≤ view.len → (∀ i, i < maxLen W → s.mem.continuesAt view i) →
      Returns W (.err .overflow) s (exec (decOf W view) s)) ∧
    (∀ k, k < maxLen W → k < view.len → (∀ i, i < k → s.mem.continuesAt view i) → s.mem.terminatesAt view k →
      ∃ v, Returns W (.ok v (k + 1)) s (exec (decOf W view) s) ∧
        v.toNat = groupSum s.mem view.base k +
          (s.mem.read (view.base + k)).toNat % keptGroupValues W k * 2 ^ (7 * k)) :=
  ⟨exec_decOf_insufficient W s view, exec_decOf_overflow W s view, exec_decOf_terminal W s view⟩

/-- Settles O45: the results at 8 bits, where R133 names the continuation bytes 0 and 1 one by one; the corner cases from
their lists of bytes. -/
theorem dec8ErrorsAndCornerCases : Obligations.Dec8ErrorsAndCornerCases := by
  unfold Obligations.Dec8ErrorsAndCornerCases
  refine ⟨fun n ibuf ilen => decode_encode_decOf .w8 n ⟨ibuf, ilen⟩,
    fun s view => ⟨fun short => ?insufficient, fun hn first second => ?overflow, exec_decOf_terminal .w8 s view⟩,
    ?allExcess, ?excess, ?padded, ?overflowLimit, ?overflowExcess, ?insufficientOne, ?insufficientNone, ?worked⟩
  case insufficient =>
    rcases short with none | ⟨one, first⟩
    · exact exec_decOf_insufficient .w8 s view (by rw [none]; decide) fun i hi => by omega
    · refine exec_decOf_insufficient .w8 s view (by rw [one]; decide) fun i hi => ?_
      obtain rfl : i = 0 := by omega
      exact first
  case overflow =>
    refine exec_decOf_overflow .w8 s view hn fun i hi => ?_
    have two : i < 2 := hi
    interval_cases i
    · exact first
    · exact second
  all_goals exact bytesDecodeTo_decOf (W := .w8) (by decide)

/-- Settles O46: code and results at 16 bits; the corner cases from their lists of bytes. -/
theorem dec16ErrorsAndCornerCases : Obligations.Dec16ErrorsAndCornerCases := by
  unfold Obligations.Dec16ErrorsAndCornerCases
  refine ⟨fun n ibuf ilen => decode_encode_decOf .w16 n ⟨ibuf, ilen⟩, exec_decOf_results .w16,
    ?excess, ?allExcess, ?padded, ?insufficient, ?overflow, ?worked⟩
  all_goals exact bytesDecodeTo_decOf (W := .w16) (by decide)

/-- Settles O47: code and results at 32 bits; the corner cases from their lists of bytes. -/
theorem dec32ErrorsAndCornerCases : Obligations.Dec32ErrorsAndCornerCases := by
  unfold Obligations.Dec32ErrorsAndCornerCases
  refine ⟨fun n ibuf ilen => decode_encode_decOf .w32 n ⟨ibuf, ilen⟩, exec_decOf_results .w32,
    ?excess, ?allExcess, ?insufficientOne, ?overflow, ?insufficientFour, ?worked⟩
  all_goals exact bytesDecodeTo_decOf (W := .w32) (by decide)

/-- Settles O48: code and results at 64 bits; the corner cases from their lists of bytes. -/
theorem dec64ErrorsAndCornerCases : Obligations.Dec64ErrorsAndCornerCases := by
  unfold Obligations.Dec64ErrorsAndCornerCases
  refine ⟨fun n ibuf ilen => decode_encode_decOf .w64 n ⟨ibuf, ilen⟩, exec_decOf_results .w64,
    ?excess, ?allExcess, ?insufficient, ?overflow, ?worked⟩
  all_goals exact bytesDecodeTo_decOf (W := .w64) (by decide)

/-- Settles O49: code and results at 128 bits; the corner cases from their lists of bytes. -/
theorem dec128ErrorsAndCornerCases : Obligations.Dec128ErrorsAndCornerCases := by
  unfold Obligations.Dec128ErrorsAndCornerCases
  refine ⟨fun n ibuf ilen => decode_encode_decOf .w128 n ⟨ibuf, ilen⟩, exec_decOf_results .w128,
    ?excess, ?allExcess, ?insufficient, ?overflow, ?worked⟩
  all_goals exact bytesDecodeTo_decOf (W := .w128) (by decide)

end Sys2Proof.Machine
end

section
/-! PROOFS. The reset and hazards family (spec/70_reset_and_hazards.md): an encoding decoded at another width (R177). -/

namespace Sys2Proof.Machine

variable {m : Memory} {x i : Nat} {view : InView}

/-- R63: every byte of an encoding before its last is a continuation byte. -/
theorem Memory.holdsEncoding.continuesAt (h : m.holdsEncoding view.base x) (hi : i + 1 < lenOf x) :
    m.continuesAt view i := by
  have notLast : ¬ encodedByte x i < 128 := fun last => hi.ne ((encodedByte_lt_iff (by omega)).mp last)
  rw [Memory.continuesAt, h i (by omega)]
  exact Nat.not_lt.mp notLast

/-- R177: the terminal byte of an encoding longer than MAXLEN_W stands beyond the group limit. -/
theorem decodeView_of_tooLongEncoding {W : Width} (h : m.holdsEncoding view.base x) (hn : lenOf x ≤ view.len)
    (long : maxLen W < lenOf x) : decodeView W m view = .err .overflow :=
  decodeView_overflow (long.le.trans hn) fun _ hi => h.continuesAt (by omega)

/-- Settles O58: an encoding that is too long is continued up to the group limit; any other decodes to its number, kept to
the decoder's width; the example from its list of bytes. -/
theorem narrowDecodeOfAWiderEncoding : Obligations.NarrowDecodeOfAWiderEncoding := by
  unfold Obligations.NarrowDecodeOfAWiderEncoding
  refine ⟨fun W W' view s v holds hn => ⟨fun long => ?tooLong, fun short => ?kept⟩, fun s obuf => ?encoded, ?decoded⟩
  case tooLong => exact returns_exec_decOf_iff.mpr (decodeView_of_tooLongEncoding holds hn long)
  case kept =>
    have number : decodeView W s.mem view = .ok (BitVec.ofNat W.bits v.toNat) (lenOf v.toNat) :=
      decodeView_of_encoding holds hn short
    exact returns_exec_decOf_iff.mpr (number.trans (by rw [BitVec.ofNat_toNat]))
  case encoded => exact encodesBytes_of_list (by decide) (by decide)
  case decoded => exact bytesDecodeTo_decOf (W := .w8) (by decide)

end Sys2Proof.Machine
end

section
/-! PROOFS. Decoding the ports (spec/30_encoding.md B.1, B.2): the families of operations, the table of the sixteen codes read
once, and the statements about decode and encode that follow from it. -/

namespace Sys2Proof.Machine

variable {n : NativeWidth} {p : Ports}

/-! ### The families of operations (R72) -/

/-- Every operation is of one of four families: an encoder or a decoder of a fixed width, or ENCN or DECN. -/
theorem instr_families (i : Instr) :
    (∃ W obuf v, i = encOf W obuf v) ∨ (∃ n obuf v, i = encNativeOf n obuf v) ∨
      (∃ W view, i = decOf W view) ∨ ∃ view, i = .decN view := by
  cases i with
  | enc8 obuf v => exact .inl ⟨.w8, obuf, v, rfl⟩
  | enc16 obuf v => exact .inl ⟨.w16, obuf, v, rfl⟩
  | enc32 obuf v => exact .inl ⟨.w32, obuf, v, rfl⟩
  | enc64 obuf v => exact .inl ⟨.w64, obuf, v, rfl⟩
  | enc128 obuf v => exact .inl ⟨.w128, obuf, v, rfl⟩
  | encN obuf v =>
    cases v with
    | n32 v => exact .inr (.inl ⟨.n32, obuf, v, rfl⟩)
    | n64 v => exact .inr (.inl ⟨.n64, obuf, v, rfl⟩)
  | dec8 view => exact .inr (.inr (.inl ⟨.w8, view, rfl⟩))
  | dec16 view => exact .inr (.inr (.inl ⟨.w16, view, rfl⟩))
  | dec32 view => exact .inr (.inr (.inl ⟨.w32, view, rfl⟩))
  | dec64 view => exact .inr (.inr (.inl ⟨.w64, view, rfl⟩))
  | dec128 view => exact .inr (.inr (.inl ⟨.w128, view, rfl⟩))
  | decN view => exact .inr (.inr (.inr ⟨view, rfl⟩))

/-- R111: ENCN is well formed exactly when its operand has NATIVE_W bits. -/
theorem encNativeOf_wellFormed_iff {n' : NativeWidth} {obuf : Nat} {v : BitVec n'.width.bits} :
    (encNativeOf n' obuf v).wellFormed n = true ↔ n' = n := by
  cases n' <;> exact beq_iff_eq

/-! ### Decode of encode -/

/-- Code 0101 with a value of NATIVE_W bits on VALUE holds ENCN, whatever stands on the ports it does not have. -/
theorem decode_native_code (n : NativeWidth) (obuf ibuf ilen : Nat) (v : BitVec n.width.bits) :
    decode n ⟨0b0101#4, v.setWidth 128, obuf, ibuf, ilen⟩ = .ok (encNativeOf n obuf v) := by
  have value (p : Ports) (hp : p.value = v.setWidth 128) : valueOfWidth n.width.bits p = .ok v :=
    valueOfWidth_of_port (by cases n <;> decide) hp
  cases n <;> exact congrArg (fun x => Except.map _ (Except.map _ x)) (value _ rfl)

theorem decode_encode_encNativeOf (n : NativeWidth) (obuf : Nat) (v : BitVec n.width.bits) :
    decode n (encode (encNativeOf n obuf v)) = .ok (encNativeOf n obuf v) := by
  cases n <;> exact decode_native_code _ obuf 0 0 v

/-- Settles O3: by the families of operations; an ENCN that is well formed has an operand of NATIVE_W bits. -/
theorem decodeOfEncodeGivesTheOperationBack : Obligations.DecodeOfEncodeGivesTheOperationBack := by
  unfold Obligations.DecodeOfEncodeGivesTheOperationBack
  intro n i wf
  rcases instr_families i with ⟨W, obuf, v, rfl⟩ | ⟨n', obuf, v, rfl⟩ | ⟨W, view, rfl⟩ | ⟨view, rfl⟩
  · exact decode_encode_encOf W n obuf v
  · obtain rfl := encNativeOf_wellFormed_iff.mp wf
    exact decode_encode_encNativeOf n' obuf v
  · exact decode_encode_decOf W n view
  · rfl

/-! ### The table, read once (R72, R73) -/

theorem nativeValueOf_map_encN (n : NativeWidth) (p : Ports) :
    (nativeValueOf n p).map (.encN p.obuf) = (valueOfWidth n.width.bits p).map (encNativeOf n p.obuf) := by
  have fuse {w : Nat} (f : BitVec w → NativeValue) (x : Except Reject (BitVec w)) :
      (x.map f).map (Instr.encN p.obuf) = x.map fun v => .encN p.obuf (f v) := by cases x <;> rfl
  cases n <;> exact fuse _ _

/-- The sixteen codes: four reserved; six that take IBUF and ILEN as they stand; six that take OBUF as it stands, and VALUE
if it is a number of W bits. -/
theorem decode_families (n : NativeWidth) (p : Ports) :
    (wselWidth n p.wsel = none ∧ decode n p = .error .reservedOpsel) ∨
      (∃ W i, wselWidth n p.wsel = some W ∧ p.isDecode = true ∧ decode n p = .ok i ∧
        encode i = .forDecoder p.opsel p.view) ∨
      (∃ W enc, wselWidth n p.wsel = some W ∧ p.isDecode = false ∧ decode n p = (valueOfWidth W.bits p).map enc ∧
        ∀ v, encode (enc v) = .forEncoder p.opsel p.obuf v) := by
  have opsel : BitVec.ofNat 4 p.opsel.toNat = p.opsel := by rw [BitVec.ofNat_toNat, BitVec.setWidth_eq]
  have code : p.opsel.toNat < 16 := p.opsel.isLt
  rw [← opsel]
  unfold Ports.wsel Ports.isDecode decode
  interval_cases p.opsel.toNat
  · exact .inr (.inr ⟨.w8, encOf .w8 p.obuf, rfl, rfl, rfl, fun _ => rfl⟩)
  · exact .inr (.inr ⟨.w16, encOf .w16 p.obuf, rfl, rfl, rfl, fun _ => rfl⟩)
  · exact .inr (.inr ⟨.w32, encOf .w32 p.obuf, rfl, rfl, rfl, fun _ => rfl⟩)
  · exact .inr (.inr ⟨.w64, encOf .w64 p.obuf, rfl, rfl, rfl, fun _ => rfl⟩)
  · exact .inr (.inr ⟨.w128, encOf .w128 p.obuf, rfl, rfl, rfl, fun _ => rfl⟩)
  · exact .inr (.inr ⟨n.width, encNativeOf n p.obuf, rfl, rfl, nativeValueOf_map_encN n p,
      by cases n <;> exact fun _ => rfl⟩)
  · exact .inl ⟨rfl, rfl⟩
  · exact .inl ⟨rfl, rfl⟩
  · exact .inr (.inl ⟨.w8, .dec8 p.view, rfl, rfl, rfl, rfl⟩)
  · exact .inr (.inl ⟨.w16, .dec16 p.view, rfl, rfl, rfl, rfl⟩)
  · exact .inr (.inl ⟨.w32, .dec32 p.view, rfl, rfl, rfl, rfl⟩)
  · exact .inr (.inl ⟨.w64, .dec64 p.view, rfl, rfl, rfl, rfl⟩)
  · exact .inr (.inl ⟨.w128, .dec128 p.view, rfl, rfl, rfl, rfl⟩)
  · exact .inr (.inl ⟨n.width, .decN p.view, rfl, rfl, rfl, rfl⟩)
  · exact .inl ⟨rfl, rfl⟩
  · exact .inl ⟨rfl, rfl⟩

/-- R22, log 7: a VALUE port that holds a number of W bits is driven again by that number. -/
theorem forEncoder_setWidth {w : Nat} {opsel : BitVec 4} {obuf : Nat} {value : BitVec 128} (fits : value.toNat < 2 ^ w) :
    Ports.forEncoder opsel obuf (value.setWidth w) = ⟨opsel, value, obuf, 0, 0⟩ := by
  have back : (value.setWidth w).setWidth 128 = value := by
    apply BitVec.eq_of_toNat_eq
    rw [BitVec.toNat_setWidth, BitVec.toNat_setWidth, Nat.mod_eq_of_lt fits, Nat.mod_eq_of_lt value.isLt]
  rw [Ports.forEncoder, back]

/-- Say once everything decode can answer, with the ports that the operation it gives is presented on. -/
theorem decode_cases (n : NativeWidth) (p : Ports) :
    (wselWidth n p.wsel = none ∧ decode n p = .error .reservedOpsel) ∨
      (∃ W i, wselWidth n p.wsel = some W ∧ p.isDecode = true ∧ decode n p = .ok i ∧
        encode i = ⟨p.opsel, 0, 0, p.ibuf, p.ilen⟩) ∨
      (∃ W i, wselWidth n p.wsel = some W ∧ p.isDecode = false ∧ p.value.toNat < 2 ^ W.bits ∧ decode n p = .ok i ∧
        encode i = ⟨p.opsel, p.value, p.obuf, 0, 0⟩) ∨
      (∃ W, wselWidth n p.wsel = some W ∧ p.isDecode = false ∧ 2 ^ W.bits ≤ p.value.toNat ∧
        decode n p = .error .valueTooWide) := by
  rcases decode_families n p with reserved | decoder | ⟨W, enc, width, dir, e, ports⟩
  · exact .inl reserved
  · exact .inr (.inl decoder)
  · by_cases fits : p.value.toNat < 2 ^ W.bits
    · rw [valueOfWidth, if_pos fits] at e
      exact .inr (.inr (.inl ⟨W, _, width, dir, fits, e, (ports _).trans (forEncoder_setWidth fits)⟩))
    · rw [valueOfWidth, if_neg fits] at e
      exact .inr (.inr (.inr ⟨W, width, dir, Nat.not_lt.mp fits, e⟩))

theorem Ports.wellFormed_iff :
    p.wellFormed n = true ↔ ∃ W, wselWidth n p.wsel = some W ∧ (p.isDecode = true ∨ p.value.toNat < 2 ^ W.bits) := by
  unfold Ports.wellFormed
  cases wselWidth n p.wsel <;> simp

/-- Settles O4: a decoded operation is presented on the ports it was decoded from, as far as it has them. -/
theorem decodedOperationCarriesItsPorts : Obligations.DecodedOperationCarriesItsPorts := by
  unfold Obligations.DecodedOperationCarriesItsPorts
  intro n p i h
  refine ⟨decode_wellFormed h, ?_⟩
  rcases decode_cases n p with ⟨-, e⟩ | ⟨W, j, -, dir, e, ports⟩ | ⟨W, j, -, dir, -, e, ports⟩ |
    ⟨W, -, -, -, e⟩ <;> rw [h] at e
  · exact nomatch e
  · obtain rfl := Except.ok.inj e
    simp [ports, dir]
  · obtain rfl := Except.ok.inj e
    simp [ports, dir]
  · exact nomatch e

/-- Settles O5: in each case of decode the three conditions are decided by the width and the direction it names. -/
theorem decodeAcceptsExactlyWellFormedPorts : Obligations.DecodeAcceptsExactlyWellFormedPorts := by
  unfold Obligations.DecodeAcceptsExactlyWellFormedPorts
  intro n p
  rw [Ports.wellFormed_iff]
  rcases decode_cases n p with ⟨width, e⟩ | ⟨W, i, width, dir, e, -⟩ | ⟨W, i, width, dir, fits, e, -⟩ |
    ⟨W, width, dir, wide, e⟩
  · simp [width, e]
  · simp [width, dir, e]
  · simp [width, dir, e, fits]
  · simp [width, dir, e, wide]

/-- Settles O1: an encoder code takes the number that VALUE carries, a decoder code the view; the four codes left over are
evaluated one by one. -/
theorem opselTableSelectsTheOperations : Obligations.OpselTableSelectsTheOperations := by
  unfold Obligations.OpselTableSelectsTheOperations
  intro n value obuf ibuf ilen
  have port {w : Nat} (hw : w ≤ 128) (v : BitVec w) (code : BitVec 4) :
      valueOfWidth w ⟨code, v.setWidth 128, obuf, ibuf, ilen⟩ = .ok v := valueOfWidth_of_port hw rfl
  refine ⟨fun v => ?enc8, fun v => ?enc16, fun v => ?enc32, fun v => ?enc64, fun v => ?enc128,
    decode_native_code .n32 obuf ibuf ilen, decode_native_code .n64 obuf ibuf ilen, rfl, rfl, rfl, rfl, rfl, rfl, ?reserved⟩
  case enc8 => exact congrArg (Except.map (Instr.enc8 obuf)) (port (by decide) v _)
  case enc16 => exact congrArg (Except.map (Instr.enc16 obuf)) (port (by decide) v _)
  case enc32 => exact congrArg (Except.map (Instr.enc32 obuf)) (port (by decide) v _)
  case enc64 => exact congrArg (Except.map (Instr.enc64 obuf)) (port (by decide) v _)
  case enc128 => exact congrArg (Except.map (Instr.enc128 obuf)) (port (by decide) v _)
  case reserved =>
    simp only [List.mem_cons, List.not_mem_nil, or_false, forall_eq_or_imp, forall_eq]
    exact ⟨rfl, rfl, rfl, rfl⟩

end Sys2Proof.Machine
end

section
/-! PROOFS. The step (spec/10_state.md R32, spec/20_memory.md R55, spec/60_exceptions.md R164): what it answers for the oldest
request, its refusals, what it keeps, and the reset state. -/

namespace Sys2Proof.Machine

variable {s : State} {r : Request} {rest : List Request} {i : Instr}

/-! ### The step on the oldest request -/

theorem step_of_rejected {e : Reject} (hq : s.queue = r :: rest) (hd : decode s.native r.ports = .error e) :
    step s = .refused (refusalOf e) := by
  simp only [step, hq, hd]

theorem step_of_decoded (hq : s.queue = r :: rest) (hd : decode s.native r.ports = .ok i) :
    step s = if conflictsWithAny s.native s.mem i s.mem (rest.take r.overlap) then .refused .aliasedBuffer
      else exec i (s.withQueue rest) := by
  simp only [step, hq, hd]

theorem step_of_clear (hq : s.queue = r :: rest) (hd : decode s.native r.ports = .ok i)
    (noConflict : conflictsWithAny s.native s.mem i s.mem (rest.take r.overlap) = false) :
    step s = exec i (s.withQueue rest) := by
  rw [step_of_decoded hq hd, noConflict, if_neg Bool.false_ne_true]

/-- A request that overlaps no other conflicts with none. -/
theorem step_of_lone (hq : s.queue = r :: rest) (alone : r.overlap = 0) (hd : decode s.native r.ports = .ok i) :
    step s = exec i (s.withQueue rest) :=
  step_of_clear hq hd (by rw [alone]; rfl)

/-- Settles O6. -/
theorem stepRunsTheDecodedOperation : Obligations.StepRunsTheDecodedOperation := by
  unfold Obligations.StepRunsTheDecodedOperation
  exact fun s r rest i hq hd noConflict => step_of_clear hq hd noConflict

/-- Settles O7. -/
theorem stepIdlesWithNothingPresented : Obligations.StepIdlesWithNothingPresented := by
  unfold Obligations.StepIdlesWithNothingPresented
  intro s hq
  simp only [step, hq]

/-- A decoded operation completes: its native operand, if it has one, has NATIVE_W bits. -/
theorem exec_of_decoded (hd : decode s.native r.ports = .ok i) (rest : List Request) :
    ∃ t, exec i (s.withQueue rest) = .next t :=
  exec_completes (s := s.withQueue rest) (decode_wellFormed hd)

/-- The outcomes of a step, each with what the ports of the oldest request hold. -/
theorem step_outcomes (hq : s.queue = r :: rest) :
    (∃ e, decode s.native r.ports = .error e ∧ step s = .refused (refusalOf e)) ∨
      (∃ i, decode s.native r.ports = .ok i ∧ ((∃ t, step s = .next t) ∨ step s = .refused .aliasedBuffer)) := by
  cases hd : decode s.native r.ports with
  | error e => exact .inl ⟨e, rfl, step_of_rejected hq hd⟩
  | ok i =>
    refine .inr ⟨i, rfl, ?_⟩
    rw [step_of_decoded hq hd]
    split
    · exact .inr rfl
    · exact .inl (exec_of_decoded hd rest)

/-! ### Refusals -/

/-- Settles O9: a step idles, or rejects the ports under one of two names, or finds a conflict, or runs a decoded operation. -/
theorem stepCompletesOrIsRefusedByName : Obligations.StepCompletesOrIsRefusedByName := by
  unfold Obligations.StepCompletesOrIsRefusedByName
  intro s
  refine ⟨(fun f => nomatch f), ?_⟩
  cases hq : s.queue with
  | nil => exact .inl ⟨s, stepIdlesWithNothingPresented s hq⟩
  | cons r rest =>
    rcases step_outcomes hq with ⟨e, -, refused⟩ | ⟨i, -, completes | refused⟩
    · cases e with
      | reservedOpsel => exact .inr (.inl refused)
      | valueTooWide => exact .inr (.inr (.inl refused))
    · exact .inl completes
    · exact .inr (.inr (.inr refused))

theorem step_eq_reservedOpsel_iff (hq : s.queue = r :: rest) :
    step s = .refused .reservedOpsel ↔ decode s.native r.ports = .error .reservedOpsel := by
  rcases step_outcomes hq with ⟨e, hd, refused⟩ | ⟨i, hd, ⟨t, ht⟩ | refused⟩
  · cases e <;> simp [hd, refused, refusalOf]
  · simp [hd, ht]
  · simp [hd, refused]

/-- R73: the two width selects left over are 6 and 7. -/
theorem wselWidth_eq_none_iff {n : NativeWidth} {p : Ports} :
    wselWidth n p.wsel = none ↔ p.opsel.toNat % 8 = 6 ∨ p.opsel.toNat % 8 = 7 := by
  have range : p.opsel.toNat % 8 < 8 := Nat.mod_lt _ (by decide)
  unfold Ports.wsel
  interval_cases p.opsel.toNat % 8 <;> simp [wselWidth]

/-- Settles O2: the refusal is decode's, and decode's is that WSEL selects no width. -/
theorem reservedOpselIsRefused : Obligations.ReservedOpselIsRefused := by
  unfold Obligations.ReservedOpselIsRefused
  intro s r rest hq
  obtain ⟨-, reserved, -⟩ := decodeAcceptsExactlyWellFormedPorts s.native r.ports
  rw [step_eq_reservedOpsel_iff hq, reserved, wselWidth_eq_none_iff]

theorem step_eq_aliasedBuffer_iff (hq : s.queue = r :: rest) (hd : decode s.native r.ports = .ok i) :
    step s = .refused .aliasedBuffer ↔ conflictsWithAny s.native s.mem i s.mem (rest.take r.overlap) = true := by
  rw [step_of_decoded hq hd]
  split
  next conflict => simp [conflict]
  next noConflict =>
    obtain ⟨t, ht⟩ := exec_of_decoded hd rest
    simp [ht, noConflict]

/-- R55: two operations conflict exactly when one of them writes a byte that the other writes or reads. -/
theorem conflicts_iff {n : NativeWidth} {m m' : Memory} {j : Instr} :
    conflicts n m i m' j = true ↔ ∃ a,
      ((writesOf i).has a = true ∧ ((writesOf j).has a = true ∨ (readsOf n m' j).has a = true)) ∨
      ((readsOf n m i).has a = true ∧ (writesOf j).has a = true) := by
  simp only [conflicts, Bool.or_eq_true, Span.meets_iff, ← exists_or, ← and_or_left]

/-- Settles O8: the conflict with some request that starts before the operation ends, byte by byte. -/
theorem overlapOnTheSameBytesIsRefused : Obligations.OverlapOnTheSameBytesIsRefused := by
  unfold Obligations.OverlapOnTheSameBytesIsRefused
  intro s r rest i hq hd
  simp only [step_eq_aliasedBuffer_iff hq hd, conflictsWithAny_iff, conflicts_iff]

/-- R111: ENCN compares the width of its operand with NATIVE_W. -/
theorem exec_encNativeOf_eq_refused_iff {n : NativeWidth} {obuf : Nat} {v : BitVec n.width.bits} :
    exec (encNativeOf n obuf v) s = .refused .nativeWidthMismatch ↔ n ≠ s.native := by
  cases n <;> cases hn : s.native <;> simp [encNativeOf, exec, execEncN, hn, encodeOp]

/-- Settles O30: both shapes of a native operand; and a step runs decoded operations only, which complete. -/
theorem nativeOperandOfTheOtherWidthIsUnreachable : Obligations.NativeOperandOfTheOtherWidthIsUnreachable := by
  unfold Obligations.NativeOperandOfTheOtherWidthIsUnreachable
  refine ⟨fun s obuf v => ?exec, fun s => ?step⟩
  case exec =>
    cases v with
    | n32 v => exact exec_encNativeOf_eq_refused_iff (n := .n32) (v := v)
    | n64 v => exact exec_encNativeOf_eq_refused_iff (n := .n64) (v := v)
  case step =>
    obtain ⟨-, ⟨t, e⟩ | e | e | e⟩ := stepCompletesOrIsRefusedByName s <;> simp [e]

/-! ### Completion and what a step keeps -/

/-- Settles O10: well-formed ports decode, and what they decode to runs and completes. -/
theorem loneWellFormedRequestCompletes : Obligations.LoneWellFormedRequestCompletes := by
  unfold Obligations.LoneWellFormedRequestCompletes
  intro s r rest hq alone wf
  obtain ⟨accepted, -⟩ := decodeAcceptsExactlyWellFormedPorts s.native r.ports
  obtain ⟨i, hd⟩ := accepted.mpr wf
  obtain ⟨t, ht⟩ := exec_of_decoded hd rest
  obtain ⟨queue, -⟩ := exec_frame ht
  exact ⟨t, (step_of_lone hq alone hd).trans ht, queue⟩

/-- What every step keeps: NATIVE_W, what an unlisted byte reads as, every request but the oldest, and the canonical form. -/
theorem step_frame {t : State} (h : step s = .next t) :
    t.native = s.native ∧ t.mem.fill = s.mem.fill ∧ t.queue = s.queue.tail ∧ (s.mem.wf = true → t.mem.wf = true) := by
  rcases step_cases s with ⟨hq, e⟩ | ⟨-, -, _, -, -, e⟩ | ⟨-, -, -, -, -, -, e⟩ | ⟨r, rest, i, hq, -, -, e⟩ <;>
    rw [h] at e
  · obtain rfl := Host.Outcome.next.inj e
    exact ⟨rfl, rfl, by rw [hq]; rfl, id⟩
  · exact nomatch e
  · exact nomatch e
  · obtain ⟨queue, native, fill, wf, -⟩ := exec_frame e.symm
    exact ⟨native, fill, by rw [hq]; exact queue, wf⟩

/-- Settles O52: idling keeps the memory, and every operation keeps its canonical form. -/
theorem stepKeepsMemoryCanonical : Obligations.StepKeepsMemoryCanonical := by
  unfold Obligations.StepKeepsMemoryCanonical
  intro s t inv h
  obtain ⟨-, -, -, wf⟩ := step_frame h
  exact wf inv

/-- Settles O55. -/
theorem stepKeepsTheStaticParameters : Obligations.StepKeepsTheStaticParameters := by
  unfold Obligations.StepKeepsTheStaticParameters
  intro s t h
  obtain ⟨native, fill, queue, -⟩ := step_frame h
  exact ⟨native, fill, queue⟩

/-! ### The reset state -/

/-- Settles O53: no cell is listed. -/
theorem resetMemoryIsCanonical : Obligations.ResetMemoryIsCanonical := by
  unfold Obligations.ResetMemoryIsCanonical StateInv
  decide

/-- Settles O54. -/
theorem resetHoldsNoOperationAndNoResult : Obligations.ResetHoldsNoOperationAndNoResult := by
  unfold Obligations.ResetHoldsNoOperationAndNoResult
  exact ⟨rfl, rfl, rfl⟩

end Sys2Proof.Machine
end

section
/-! PROOFS. The groups of a value and what an encoder operation does with them (spec/40_shift_mask_network.md R95,
spec/41_encoder.md R102 to R106, R111, R114). -/

namespace Sys2Proof.Machine

variable {m : Memory} {base x i k : Nat}

/-! ### Groups tile the value (R95) -/

theorem two_pow_seven_mul_succ (k : Nat) : 2 ^ (7 * (k + 1)) = 2 ^ (7 * k) * 128 := by
  rw [Nat.mul_add, pow_add]
  rfl

theorem sum_groupOf (x k : Nat) : ∑ i ∈ Finset.range k, groupOf x i * 2 ^ (7 * i) = x % 2 ^ (7 * k) := by
  induction k with
  | zero => simp [Nat.mod_one]
  | succ k ih =>
    rw [Finset.sum_range_succ, ih, two_pow_seven_mul_succ, Nat.mod_mul, groupOf, Nat.mul_comm (2 ^ (7 * k))]

theorem groupOf_eq_zero (h : lenOf x ≤ i) : groupOf x i = 0 := by
  have below : x < 2 ^ (7 * i) := (lt_two_pow_lenOf x).trans_le (Nat.pow_le_pow_right (by decide) (by omega))
  rw [groupOf, Nat.div_eq_of_lt below]

theorem groupOf_last_pos (h : 1 ≤ x) : 1 ≤ groupOf x (lenOf x - 1) := by
  have pos : 1 ≤ lenOf x := one_le_lenOf x
  have lower : 2 ^ (7 * (lenOf x - 1)) ≤ x := by
    rcases Nat.eq_or_lt_of_le pos with one | more
    · rwa [← one]
    · exact two_pow_le_of_lenOf more
  rw [← encodedByte_last, encodedByte_last_eq_div (by omega)]
  exact Nat.div_pos lower (Nat.two_pow_pos _)

/-- Settles O16: a group is a digit of the value to base 128, and GROUPCOUNT(SIGBITS(v)) is the number of digits. -/
theorem groupsTileTheValue : Obligations.GroupsTileTheValue := by
  unfold Obligations.GroupsTileTheValue
  intro W v
  have count : groupCount (sigBits v) = lenOf v.toNat := encLen_eq v
  rw [count]
  refine ⟨?tile, fun i hi => ?above, fun hv => ?highest⟩
  case tile =>
    have fits : v.toNat < 2 ^ (7 * maxLen W) := v.isLt.trans_le (Nat.pow_le_pow_right (by decide) (width_le_groups W))
    simp only [extract7_eq, sum_groupOf, ← maxLen_eq]
    rw [Nat.mod_eq_of_lt fits, Nat.mod_eq_of_lt v.isLt]
  case above => exact BitVec.eq_of_toNat_eq ((extract7_eq v i).trans (groupOf_eq_zero hi))
  case highest =>
    intro zero
    have group : groupOf v.toNat (lenOf v.toNat - 1) = 0 := by rw [← extract7_eq, zero]; rfl
    have pos : 1 ≤ groupOf v.toNat (lenOf v.toNat - 1) := groupOf_last_pos hv
    omega

/-! ### The layout of R62 and R63 determines the bytes (R102) -/

/-- What is added at a higher place does not touch a group. -/
theorem groupOf_add_mul (a g : Nat) (hi : i < k) : groupOf (a + g * 2 ^ (7 * k)) i = groupOf a i := by
  obtain ⟨c, higher⟩ := pow_dvd_pow 2 (show 7 * (i + 1) ≤ 7 * k by omega)
  rw [groupOf, groupOf, ← Nat.mod_mul_right_div_self, ← Nat.mod_mul_right_div_self a, ← two_pow_seven_mul_succ, higher,
    Nat.mul_left_comm, Nat.add_mul_mod_self_left]

/-- R65: the groups of a sum of groups are those it was added up from. -/
theorem groupOf_groupSum (hi : i < k) : groupOf (groupSum m base k) i = (m.read (base + i)).toNat % 128 := by
  induction k with
  | zero => omega
  | succ k ih =>
    rw [groupSum]
    rcases Nat.lt_succ_iff_lt_or_eq.mp hi with lower | rfl
    · rw [groupOf_add_mul _ _ lower, ih lower]
    · rw [groupOf, Nat.add_mul_div_right _ _ (Nat.two_pow_pos _), Nat.div_eq_of_lt (groupSum_lt m base i), Nat.zero_add,
        Nat.mod_mod]

/-- Bytes in the layout of R62 and R63, as many as the number needs, are its canonical encoding. -/
theorem holdsEncoding_of_layout (continued : ∀ j, j + 1 < lenOf x → 128 ≤ (m.read (base + j)).toNat)
    (last : (m.read (base + (lenOf x - 1))).toNat < 128) (sum : groupSum m base (lenOf x) = x) :
    m.holdsEncoding base x := by
  intro i hi
  have group : groupOf x i = (m.read (base + i)).toNat % 128 := by rw [← groupOf_groupSum hi, sum]
  have byte : (m.read (base + i)).toNat < 256 := (m.read (base + i)).isLt
  unfold encodedByte
  split
  next final =>
    rw [show lenOf x - 1 = i by omega] at last
    omega
  next inner =>
    have := continued i (by omega)
    omega

theorem lenOf_eq_one_iff : lenOf x = 1 ↔ x < 2 ^ 7 := by
  have pos : 1 ≤ lenOf x := one_le_lenOf x
  have atMost : lenOf x ≤ 1 ↔ x < 2 ^ 7 := lenOf_le_iff le_rfl
  rw [← atMost]
  omega

theorem lenOf_eq_iff (hk : 2 ≤ k) : lenOf x = k ↔ 2 ^ (7 * (k - 1)) ≤ x ∧ x < 2 ^ (7 * k) := by
  refine ⟨?_, fun ⟨lower, upper⟩ => lenOf_eq hk lower upper⟩
  rintro rfl
  exact ⟨two_pow_le_of_lenOf hk, lt_two_pow_lenOf x⟩

/-- Settles O18: k groups hold no number of more than 7k bits, and the layout leaves no choice of bytes. -/
theorem encodingIsTheShortestAndUnique : Obligations.EncodingIsTheShortestAndUnique := by
  unfold Obligations.EncodingIsTheShortestAndUnique
  intro W obuf v s
  obtain ⟨t, ht, len, bytes, -⟩ := exec_encOf_encodes W obuf v s
  refine ⟨t, lenOf v.toNat, ht, len, rfl, lenOf_eq_one_iff, fun k hk _ => lenOf_eq_iff hk, ?_⟩
  intro m base k pos continued last sum
  refine ⟨?shortest, ?unique⟩
  case shortest => exact (lenOf_le_iff pos).mpr (sum ▸ groupSum_lt m base k)
  case unique =>
    rintro rfl i hi
    exact (holdsEncoding_of_layout continued last sum).read_eq bytes hi

/-! ### Every value is accepted, and what lies outside its bytes is left alone (R104, R105) -/

theorem encode_length_bounds (W : Width) (v : BitVec W.bits) :
    1 ≤ lenOf v.toNat ∧ lenOf v.toNat ≤ maxLen W ∧ lenOf v.toNat ≤ bufCap W := by
  have longest : lenOf v.toNat ≤ maxLen W := lenOf_le_maxLen W v.isLt
  exact ⟨one_le_lenOf _, longest, longest.trans (maxLen_le_bufCap W)⟩

/-- Settles O20: ENCN at the width NATIVE_W names. -/
theorem encoderNeverFails : Obligations.EncoderNeverFails := by
  unfold Obligations.EncoderNeverFails
  intro s obuf
  refine ⟨fun W v => ?byWidth, fun v => ?native⟩
  case byWidth =>
    obtain ⟨t, ht, len, -⟩ := exec_encOf_encodes W obuf v s
    exact ⟨t, _, ht, len, encode_length_bounds W v⟩
  case native =>
    obtain ⟨t, ht, len, -⟩ := exec_encNativeOf_encodes (s := s) rfl obuf v
    exact ⟨t, _, ht, len, encode_length_bounds s.native.width v⟩

/-- Settles O21: the frame of the encode, and a second run of it over the other memory. -/
theorem encoderWritesOnlyItsOwnBytes : Obligations.EncoderWritesOnlyItsOwnBytes := by
  unfold Obligations.EncoderWritesOnlyItsOwnBytes
  intro W obuf v s
  obtain ⟨t, ht, len, bytes, outside, -, queue, native⟩ := exec_encOf_encodes W obuf v s
  have longest : lenOf v.toNat ≤ maxLen W := lenOf_le_maxLen W v.isLt
  refine ⟨t, lenOf v.toNat, ht, len, longest, fun a ha => outside a (by omega), fun i hi => outside _ (by omega), queue,
    native, fun s' => ?other⟩
  case other =>
    obtain ⟨t', ht', len', bytes', -⟩ := exec_encOf_encodes W obuf v s'
    exact ⟨t', ht', len', fun i hi => bytes'.read_eq bytes hi⟩

/-! ### No output stands at the start of another (R114) -/

/-- The bytes from one address on encode at most one value of a width: they decode to it. -/
theorem Memory.holdsEncoding.value_eq {W : Width} {v v' : BitVec W.bits} (h : m.holdsEncoding base v.toNat)
    (h' : m.holdsEncoding base v'.toNat) : v = v' := by
  have first := decodeView_of_value (view := ⟨base, max (lenOf v.toNat) (lenOf v'.toNat)⟩) h (le_max_left _ _)
  have second := decodeView_of_value (view := ⟨base, max (lenOf v.toNat) (lenOf v'.toNat)⟩) h' (le_max_right _ _)
  exact (DecodeResult.ok.inj (first.symm.trans second)).1

/-- Settles O23: where one output stands at the start of another, the bytes encode both values; and the bytes depend on the
number alone, not on the width. -/
theorem encodingsAreInjectiveAndPrefixFree : Obligations.EncodingsAreInjectiveAndPrefixFree := by
  unfold Obligations.EncodingsAreInjectiveAndPrefixFree
  refine ⟨fun W v v' obuf obuf' s s' => ?atTheStart, fun W W' v v' obuf obuf' s s' same => ?widthsAgree⟩
  case atTheStart =>
    obtain ⟨t, ht, -, bytes, -⟩ := exec_encOf_encodes W obuf v s
    obtain ⟨t', ht', len', bytes', -⟩ := exec_encOf_encodes W obuf' v' s'
    exact ⟨t, t', lenOf v'.toNat, ht, ht', len', fun agree => bytes.value_eq (bytes'.of_sameReads agree)⟩
  case widthsAgree =>
    obtain ⟨t, ht, len, bytes, -⟩ := exec_encOf_encodes W obuf v s
    obtain ⟨t', ht', len', bytes', -⟩ := exec_encOf_encodes W' obuf' v' s'
    rw [← same] at len' bytes'
    exact ⟨t, t', lenOf v.toNat, ht, ht', len, len', fun i hi => bytes.read_eq bytes' hi⟩

/-! ### ENC8 and ENCN (R106, R111) -/

/-- Settles O24: code, effect and lengths at 8 bits, where no length lies between 1 and MAXLEN_W; the corner cases from their
lists of bytes. -/
theorem enc8LengthsAndCornerCases : Obligations.Enc8LengthsAndCornerCases := by
  unfold Obligations.Enc8LengthsAndCornerCases
  refine ⟨decode_encode_encOf .w8, fun s obuf => ⟨fun v => exec_encOf_encodes .w8 obuf v s, fun v => ?lengths,
    ?zero, ?oneByte, ?twoBytes, ?greatest⟩⟩
  case lengths =>
    obtain ⟨t, len, ht, response, one, -, two⟩ := exec_encOf_lengths .w8 obuf v s
    exact ⟨t, len, ht, response, one, two⟩
  all_goals exact encodesBytes_of_list (by decide) (by decide)

/-- R111: 300 takes two bytes, and the greatest value of NATIVE_W bits takes MAXLEN_W bytes, under both settings. -/
theorem encNative_examples {n : NativeWidth} {s : State} (hn : s.native = n) (obuf : Nat) :
    EncodesBytes [0xAC#8, 0x02#8] obuf (exec (encNativeOf n obuf 300) s) ∧
      ∃ t, exec (encNativeOf n obuf (BitVec.allOnes n.width.bits)) s = .next t ∧ t.response = .len (maxLen n.width) := by
  refine ⟨?worked, ?greatest⟩
  case worked =>
    rw [exec_encNativeOf hn]
    cases n <;> exact encodesBytes_of_list (by decide) (by decide)
  case greatest =>
    obtain ⟨t, ht, len, -⟩ := exec_encNativeOf_encodes hn obuf (BitVec.allOnes n.width.bits)
    have longest : lenOf (BitVec.allOnes n.width.bits).toNat = maxLen n.width := by cases n <;> decide
    exact ⟨t, ht, longest ▸ len⟩

/-- Settles O29: ENCN runs the shared operation at the width NATIVE_W names, as ENC32 and ENC64 do at theirs. -/
theorem nativeEncoderIsTheSelectedWidth : Obligations.NativeEncoderIsTheSelectedWidth := by
  unfold Obligations.NativeEncoderIsTheSelectedWidth
  intro s obuf
  obtain ⟨worked, greatest⟩ := encNative_examples (s := s) rfl obuf
  refine ⟨fun hn v => ?n32, fun hn v => ?n64, worked, fun v => ?bound, greatest⟩
  case n32 => exact ⟨exec_encNativeOf hn obuf v, hn ▸ decode_encode_encNativeOf .n32 obuf v⟩
  case n64 => exact ⟨exec_encNativeOf hn obuf v, hn ▸ decode_encode_encNativeOf .n64 obuf v⟩
  case bound =>
    obtain ⟨t, ht, len, -⟩ := exec_encNativeOf_encodes (s := s) rfl obuf v
    have longest : lenOf v.toNat ≤ maxLen s.native.width := lenOf_le_maxLen _ v.isLt
    exact ⟨t, _, ht, len, fun hn => longest.trans_eq (by rw [hn]; rfl), fun hn => longest.trans_eq (by rw [hn]; rfl)⟩

end Sys2Proof.Machine
end

section
/-! PROOFS. The decoder's results (spec/42_decoder.md R126 to R130, R138, R141, R142; spec/10_state.md R27): the closed form,
the exact conditions of the two errors, and inputs that are longer, padded, cut or decoded at another width. -/

namespace Sys2Proof.Machine

variable {m : Memory} {base n n' k x : Nat} {view : InView} {W W' : Width} {s : State}

/-! ### The closed form (R129) -/

theorem firstTerminal_eq_some {t bound : Nat} (ht : t < view.len) (htl : t < bound) (last : m.terminatesAt view t)
    (before : ∀ j, j < t → m.continuesAt view j) : firstTerminal m view bound = some t := by
  refine List.find?_range_eq_some.mpr ⟨decide_eq_true last, List.mem_range.mpr (by omega), fun j hj => ?_⟩
  simpa [Memory.continuesAt] using before j hj

theorem firstTerminal_eq_none {bound : Nat} (all : ∀ j, j < min view.len bound → m.continuesAt view j) :
    firstTerminal m view bound = none := by
  refine List.find?_range_eq_none.mpr fun j hj => ?_
  simpa [Memory.continuesAt] using all j hj

/-- The loop and the closed form agree in each of the three cases of a decode. -/
theorem closedForm_eq_decodeView (W : Width) (m : Memory) (view : InView) : closedForm W m view = decodeView W m view := by
  rw [closedForm, ← maxLen_eq_ceil]
  rcases decodeView_cases W m view with ⟨t, ht, htl, last, before, e⟩ | ⟨hl, all, e⟩ | ⟨hl, all, e⟩ <;> rw [e]
  · rw [firstTerminal_eq_some ht htl last before]
  · rw [firstTerminal_eq_none fun j hj => all j (by omega)]
    exact if_pos hl
  · rw [firstTerminal_eq_none fun j hj => all j (by omega)]
    exact if_neg (by omega)

/-- DECN returns what its view decodes to at the width NATIVE_W names. -/
theorem returns_exec_decN_iff {r : DecodeResult s.native.width.bits} :
    Returns s.native.width r s (exec (.decN view) s) ↔ decodeView s.native.width s.mem view = r := by
  rw [exec_decN]
  exact returns_iff

/-- Settles O31: each of the six operations returns what its view decodes to, which is the closed form. -/
theorem decoderReturnsTheClosedForm : Obligations.DecoderReturnsTheClosedForm := by
  unfold Obligations.DecoderReturnsTheClosedForm
  intro s view
  have byWidth (W : Width) : Returns W (closedForm W s.mem view) s (exec (decOf W view) s) :=
    returns_exec_decOf_iff.mpr (closedForm_eq_decodeView W s.mem view).symm
  exact ⟨byWidth .w8, byWidth .w16, byWidth .w32, byWidth .w64, byWidth .w128,
    returns_exec_decN_iff.mpr (closedForm_eq_decodeView _ s.mem view).symm⟩

/-! ### The two errors (R127, R128) -/

/-- R127: the exact condition of Insufficient. -/
theorem decodeView_eq_insufficient_iff :
    decodeView W m view = .err .insufficient ↔ view.len < maxLen W ∧ ∀ i, i < view.len → m.continuesAt view i := by
  refine ⟨fun h => ?_, fun ⟨short, all⟩ => decodeView_insufficient short all⟩
  rcases decodeView_cases W m view with ⟨t, -, -, -, -, e⟩ | ⟨-, -, e⟩ | ⟨short, all, -⟩
  · exact nomatch h.symm.trans e
  · exact nomatch h.symm.trans e
  · exact ⟨short, all⟩

/-- R128: the exact condition of Overflow. -/
theorem decodeView_eq_overflow_iff :
    decodeView W m view = .err .overflow ↔ maxLen W ≤ view.len ∧ ∀ i, i < maxLen W → m.continuesAt view i := by
  refine ⟨fun h => ?_, fun ⟨long, all⟩ => decodeView_overflow long all⟩
  rcases decodeView_cases W m view with ⟨t, -, -, -, -, e⟩ | ⟨long, all, -⟩ | ⟨-, -, e⟩
  · exact nomatch h.symm.trans e
  · exact ⟨long, all⟩
  · exact nomatch h.symm.trans e

/-- Settles O33: by the exact condition, DECN at the width NATIVE_W names. -/
theorem insufficientExactlyWhenTheInputRunsOut : Obligations.InsufficientExactlyWhenTheInputRunsOut := by
  unfold Obligations.InsufficientExactlyWhenTheInputRunsOut
  exact fun W view s => ⟨returns_exec_decOf_iff.trans decodeView_eq_insufficient_iff,
    returns_exec_decN_iff.trans decodeView_eq_insufficient_iff⟩

/-- Settles O34: by the exact condition, DECN at the width NATIVE_W names; the examples from their lists of bytes. -/
theorem overflowExactlyWhenNoByteUpToTheLimitEnds : Obligations.OverflowExactlyWhenNoByteUpToTheLimitEnds := by
  unfold Obligations.OverflowExactlyWhenNoByteUpToTheLimitEnds
  refine ⟨fun W view s => ⟨returns_exec_decOf_iff.trans decodeView_eq_overflow_iff,
    returns_exec_decN_iff.trans decodeView_eq_overflow_iff⟩, ?terminalBeyond, ?terminalAtLimit, ?continuedAtLimit⟩
  all_goals exact bytesDecodeTo_decOf (W := .w8) (by decide)

/-! ### What stands after the encoding, and padding (R126, R130) -/

/-- Settles O37: an encoding ends at its own last byte, and a decode looks at the bytes it examines only. -/
theorem trailingBytesAreIgnored : Obligations.TrailingBytesAreIgnored := by
  unfold Obligations.TrailingBytesAreIgnored
  refine ⟨fun W view s v holds hn => ?encoding, fun W view s s' r h same => ?general⟩
  case encoding => exact returns_exec_decOf_iff.mpr (decodeView_of_value holds hn)
  case general => exact returns_exec_decOf_iff.mpr ((decodeView_congr same).trans (returns_exec_decOf_iff.mp h))

/-- R130: one zero group after the continued groups of a number adds nothing to it. -/
theorem decodeView_of_padded (hL : lenOf x < maxLen W) (hn : lenOf x < view.len)
    (continued : ∀ i, i < lenOf x → (m.read (view.base + i)).toNat = groupOf x i + 128)
    (zero : m.read (view.base + lenOf x) = 0x00#8) :
    decodeView W m view = .ok (BitVec.ofNat W.bits x) (lenOf x + 1) := by
  have groups : groupSum m view.base (lenOf x) = x := by
    rw [groupSum_of_groups fun j hj => ?_, Nat.mod_eq_of_lt (lt_two_pow_lenOf x)]
    have := groupOf_lt x j
    have := continued j hj
    omega
  have sum : groupSum m view.base (lenOf x + 1) = x := by
    rw [groupSum, groups, zero]
    simp
  have ok := decodeView_ok (W := W) (m := m) hn hL (by rw [Memory.terminatesAt, zero]; decide) fun j hj => by
    rw [Memory.continuesAt, continued j hj]
    exact Nat.le_add_left _ _
  rwa [sum] at ok

/-- Settles O38: the padded encoding of a value of W bits; the examples from their lists of bytes. -/
theorem paddedInputIsAccepted : Obligations.PaddedInputIsAccepted := by
  unfold Obligations.PaddedInputIsAccepted
  refine ⟨fun W view s v hL hn continued zero => ?padded, ?zero8, ?zero32⟩
  case padded =>
    have number := decodeView_of_padded hL hn continued zero
    rw [BitVec.ofNat_toNat, BitVec.setWidth_eq] at number
    exact returns_exec_decOf_iff.mpr number
  case zero8 => exact bytesDecodeTo_decOf (W := .w8) (by decide)
  case zero32 => exact bytesDecodeTo_decOf (W := .w32) (by decide)

/-! ### Longer and shorter inputs (R27, R141) -/

theorem examined_le_of_final (final : decodeView W m ⟨base, n⟩ ≠ .err .insufficient) :
    examined W m ⟨base, n⟩ ≤ n := by
  unfold examined
  rcases decodeView_cases W m ⟨base, n⟩ with ⟨t, ht, -, -, -, e⟩ | ⟨long, -, e⟩ | ⟨-, -, e⟩
  · rw [e]; exact ht
  · rw [e]; exact long
  · exact absurd e final

/-- R141: a result other than Insufficient does not look past the end of the input. -/
theorem decodeView_of_longer (final : decodeView W m ⟨base, n⟩ ≠ .err .insufficient) (hn : n ≤ n') :
    decodeView W m ⟨base, n'⟩ = decodeView W m ⟨base, n⟩ := by
  rcases decodeView_cases W m ⟨base, n⟩ with ⟨t, ht, htl, last, before, e⟩ | ⟨long, all, e⟩ | ⟨-, -, e⟩
  · rw [e]; exact decodeView_ok (ht.trans_le hn) htl last before
  · rw [e]; exact decodeView_overflow (long.trans hn) all
  · exact absurd e final

/-- Settles O43: the longer view of the same memory, then the other memory, which agrees on what is examined; the examples
from their lists of bytes. -/
theorem resultIsStableUnderExtension : Obligations.ResultIsStableUnderExtension := by
  unfold Obligations.ResultIsStableUnderExtension
  refine ⟨fun W base n n' s s' r final hn same h => ?stable, ?one8, ?two8, ?overflow8, ?one16, ?two16⟩
  case stable =>
    obtain rfl := returns_exec_decOf_iff.mp h
    have here : decodeView W s'.mem ⟨base, n⟩ = decodeView W s.mem ⟨base, n⟩ :=
      decodeView_congr fun i hi => same i (hi.trans_le (examined_le_of_final final))
    refine returns_exec_decOf_iff.mpr ((decodeView_of_longer ?_ hn).trans here)
    rwa [here]
  case one8 => exact bytesDecodeTo_decOf (W := .w8) (by decide)
  case two8 => exact bytesDecodeTo_decOf (W := .w8) (by decide)
  case overflow8 => exact bytesDecodeTo_decOf (W := .w8) (by decide)
  case one16 => exact bytesDecodeTo_decOf (W := .w16) (by decide)
  case two16 => exact bytesDecodeTo_decOf (W := .w16) (by decide)

/-- R27: an input cut to MAXLEN_W bytes is Insufficient only where nothing was cut. -/
theorem decodeView_window (W : Width) (m : Memory) (base n : Nat) :
    decodeView W m ⟨base, n⟩ = decodeView W m ⟨base, min n (maxLen W)⟩ := by
  by_cases short : n ≤ maxLen W
  · rw [min_eq_left short]
  · refine decodeView_of_longer (fun cut => ?_) (min_le_left _ _)
    obtain ⟨less, -⟩ := decodeView_eq_insufficient_iff.mp cut
    simp only at less
    omega

/-- Settles O42. -/
theorem windowOfMaxLenBytesIsEnough : Obligations.WindowOfMaxLenBytesIsEnough := by
  unfold Obligations.WindowOfMaxLenBytesIsEnough
  intro W base n s
  rw [exec_decOf, exec_decOf, decodeOp, decodeOp, ← decodeView_window]

/-! ### A wider decoder (R142) -/

/-- The groups that a narrower decoder reads all fit a wider one. -/
theorem groups_fit_wider (h : W.bits < W'.bits) : 7 * maxLen W ≤ W'.bits := by
  revert h
  cases W <;> cases W' <;> decide

theorem maxLen_le_wider (h : W.bits < W'.bits) : maxLen W ≤ maxLen W' := by
  have fits : 7 * maxLen W ≤ W'.bits := groups_fit_wider h
  have within : W'.bits ≤ 7 * maxLen W' := width_le_groups W'
  omega

/-- R70: the first k + 1 groups make a number of W bits exactly when byte k has no excess bits. -/
theorem noExcessBits_iff (hk : k < maxLen W) :
    noExcessBits W m view (k + 1) ↔ groupSum m view.base (k + 1) < 2 ^ W.bits := by
  have limit : maxLen W = maxGroups W + 1 := maxLen_eq W
  have fits : 7 * maxGroups W < W.bits := shift_lt_width W
  rw [noExcessBits, Nat.add_sub_cancel]
  by_cases top : k = maxGroups W
  · subst top
    have split : 2 ^ W.bits = 2 ^ (W.bits - 7 * maxGroups W) * 2 ^ (7 * maxGroups W) := by
      rw [← pow_add, Nat.sub_add_cancel fits.le]
    have place : 0 < 2 ^ (7 * maxGroups W) := Nat.two_pow_pos _
    rw [split, groupSum, ← Nat.div_lt_iff_lt_mul place, Nat.add_mul_div_right _ _ place,
      Nat.div_eq_of_lt (groupSum_lt m view.base _), Nat.zero_add]
    exact imp_iff_right limit.symm
  · refine iff_of_true (fun whole => by omega) ((groupSum_lt m view.base _).trans_le ?_)
    exact Nat.pow_le_pow_right (by decide) (by omega)

/-- A number that the wider width holds is its narrower form widened exactly when the narrower width holds it too. -/
theorem ofNat_eq_setWidth_ofNat_iff {w w' : Nat} (hw : w ≤ w') (hx : x < 2 ^ w') :
    BitVec.ofNat w' x = (BitVec.ofNat w x).setWidth w' ↔ x < 2 ^ w := by
  have kept : x % 2 ^ w < 2 ^ w' := (Nat.mod_lt x (Nat.two_pow_pos w)).trans_le (Nat.pow_le_pow_right (by decide) hw)
  rw [← BitVec.toNat_inj, BitVec.toNat_setWidth, BitVec.toNat_ofNat, BitVec.toNat_ofNat, Nat.mod_eq_of_lt hx,
    Nat.mod_eq_of_lt kept, eq_comm, Nat.mod_eq_iff_lt (Nat.two_pow_pos w).ne']

/-- Settles O44: both widths find the same terminal byte and add up the same groups, all of which the wider one holds; the
examples from their lists of bytes. -/
theorem widerDecoderAgrees : Obligations.WiderDecoderAgrees := by
  unfold Obligations.WiderDecoderAgrees
  refine ⟨fun W W' view s v consumed wider h => ?wider, ?overflow8, ?ok16⟩
  case wider =>
    have ok := returns_exec_decOf_iff.mp h
    rcases decodeView_cases W s.mem view with ⟨t, ht, htl, last, before, e⟩ | ⟨-, -, e⟩ | ⟨-, -, e⟩ <;> rw [ok] at e
    · obtain ⟨rfl, rfl⟩ := DecodeResult.ok.inj e
      have sumFits : groupSum s.mem view.base (t + 1) < 2 ^ W'.bits :=
        (groupSum_lt s.mem view.base (t + 1)).trans_le
          (Nat.pow_le_pow_right (by decide) (by have := groups_fit_wider wider; omega))
      refine ⟨_, returns_exec_decOf_iff.mpr (decodeView_ok ht (htl.trans_le (maxLen_le_wider wider)) last before), ?_, ?_⟩
      · rw [BitVec.setWidth_ofNat_of_le wider.le]
      · rw [noExcessBits_iff htl, ofNat_eq_setWidth_ofNat_iff wider.le sumFits]
    · exact nomatch e
    · exact nomatch e
  case overflow8 => exact bytesDecodeTo_decOf (W := .w8) (by decide)
  case ok16 => exact bytesDecodeTo_decOf (W := .w16) (by decide)

/-! ### DECN and STATUS (R138, R163) -/

/-- R138: AC 02 is 300 at either native width. -/
theorem decodeView_of_300 (n : NativeWidth) (h : bytesAt m base 2 = [0xAC#8, 0x02#8]) :
    decodeView n.width m ⟨base, 2⟩ = .ok 300 2 := by
  rw [decodeView_of_bytes (h.trans (bytesAt_memoryOf [0xAC#8, 0x02#8]).symm)]
  cases n <;> decide

/-- DECN is the decoder of the width that NATIVE_W names. -/
theorem exec_decN_eq_exec_decOf (W : Width) (hn : s.native.width = W) (view : InView) :
    exec (.decN view) s = exec (decOf W view) s := by
  rw [exec_decN, exec_decOf, hn]

/-- Settles O50: DECN runs the shared operation at the width NATIVE_W names, as DEC32 and DEC64 do at theirs; the examples
from their lists of bytes. -/
theorem nativeDecoderIsTheSelectedWidth : Obligations.NativeDecoderIsTheSelectedWidth := by
  unfold Obligations.NativeDecoderIsTheSelectedWidth
  have overflow32 : BytesDecodeTo .dec32 (List.replicate 5 0x80#8) .w32 (.err .overflow) :=
    bytesDecodeTo_decOf (W := .w32) (by decide)
  have insufficient64 : BytesDecodeTo .dec64 (List.replicate 5 0x80#8) .w64 (.err .insufficient) :=
    bytesDecodeTo_decOf (W := .w64) (by decide)
  refine ⟨fun s view => ⟨fun hn => exec_decN_eq_exec_decOf .w32 (by rw [hn]) view,
      fun hn => exec_decN_eq_exec_decOf .w64 (by rw [hn]) view, rfl⟩,
    fun s base bytes => ⟨fun hn => ?fiveBytes32, fun hn => ?fiveBytes64⟩, fun s base bytes => ?worked⟩
  case fiveBytes32 =>
    rw [exec_decN_eq_exec_decOf .w32 (by rw [hn])]
    exact overflow32 s base bytes
  case fiveBytes64 =>
    rw [exec_decN_eq_exec_decOf .w64 (by rw [hn])]
    exact insufficient64 s base bytes
  case worked => exact returns_exec_decN_iff.mpr (decodeView_of_300 s.native bytes)

/-- Settles O51: one code for each shape of a result. -/
theorem statusCodesOfTheOutcomes : Obligations.StatusCodesOfTheOutcomes := by
  unfold Obligations.StatusCodesOfTheOutcomes
  refine fun W => ⟨fun _ _ => rfl, rfl, rfl, fun r => ?_⟩
  cases r with
  | ok v consumed => simp [DecodeResult.status]
  | err kind => cases kind <;> simp [DecodeResult.status]

end Sys2Proof.Machine
end

section
/-! PROOFS. Operations one after another (spec/10_state.md R20, spec/20_memory.md R53, R54): what an operation depends on, two
operations in either order, and an encode followed by a decode of its buffer. -/

namespace Sys2Proof.Machine

variable {s s' t t' : State} {i j : Instr} {W : Width} {n : NativeWidth} {obuf : Nat} {view : InView}

/-! ### Footprints by family (R47, R48) -/

theorem writesOf_encOf (v : BitVec W.bits) : writesOf (encOf W obuf v) = ⟨obuf, lenOf v.toNat⟩ := by
  rw [← encLen_eq]
  cases W <;> rfl

theorem writesOf_encNativeOf (v : BitVec n.width.bits) : writesOf (encNativeOf n obuf v) = ⟨obuf, lenOf v.toNat⟩ := by
  rw [← encLen_eq]
  cases n <;> rfl

theorem writesOf_decOf : writesOf (decOf W view) = .empty := by cases W <;> rfl

theorem readsOf_decOf {m : Memory} : readsOf n m (decOf W view) = ⟨view.base, examined W m view⟩ := by cases W <;> rfl

/-! ### What an operation depends on (R20, R47, R48) -/

/-- `o` completes, with the response of t, and writes in this span the bytes that stand in t. -/
def CompletesAs (t : State) (span : Span) (o : Host.Outcome State Fault Refusal) : Prop :=
  ∃ t', o = .next t' ∧ t'.response = t.response ∧ ∀ a, span.has a = true → t'.mem.read a = t.mem.read a

/-- Two encodes of one number to one buffer write the same bytes and return the same length. -/
theorem Encodes.completesAs {x : Nat} {o' : Host.Outcome State Fault Refusal} (h : Encodes x obuf s (.next t))
    (h' : Encodes x obuf s' o') : CompletesAs t ⟨obuf, lenOf x⟩ o' := by
  obtain ⟨u, e, len, bytes, -⟩ := h
  obtain rfl := Host.Outcome.next.inj e
  obtain ⟨t', ht', len', bytes', -⟩ := h'
  refine ⟨t', ht', len'.trans len.symm, fun a ha => ?_⟩
  obtain ⟨lower, upper⟩ := Span.has_iff.mp ha
  obtain ⟨k, rfl⟩ := Nat.exists_eq_add_of_le lower
  exact bytes'.read_eq bytes (Nat.lt_of_add_lt_add_left upper)

/-- Two decodes of one view return the same where the bytes that the first examines are the same. -/
theorem decodeOp_completesAs (h : decodeOp W view s = .next t)
    (same : ∀ a, (Span.mk view.base (examined W s.mem view)).has a = true → s'.mem.read a = s.mem.read a) :
    CompletesAs t .empty (decodeOp W view s') := by
  obtain rfl := Host.Outcome.next.inj h
  have result : decodeView W s'.mem view = decodeView W s.mem view :=
    decodeView_congr fun k hk => same _ (Span.has_iff.mpr ⟨Nat.le_add_right _ _, Nat.add_lt_add_left hk _⟩)
  exact ⟨_, rfl, congrArg (Response.result W) result, fun a ha => by simp at ha⟩

/-- What a completed operation returns and writes is decided by NATIVE_W and the bytes it reads. -/
theorem exec_completesAs (hn : s'.native = s.native) (h : exec i s = .next t)
    (same : ∀ a, (readsOf s.native s.mem i).has a = true → s'.mem.read a = s.mem.read a) :
    CompletesAs t (writesOf i) (exec i s') := by
  rcases instr_families i with ⟨W, obuf, v, rfl⟩ | ⟨n, obuf, v, rfl⟩ | ⟨W, view, rfl⟩ | ⟨view, rfl⟩
  · rw [writesOf_encOf]
    exact (h ▸ exec_encOf_encodes W obuf v s).completesAs (exec_encOf_encodes W obuf v s')
  · have native : s.native = n := by
      by_contra other
      rw [exec_encNativeOf_eq_refused_iff.mpr (Ne.symm other)] at h
      exact nomatch h
    rw [writesOf_encNativeOf]
    exact (h ▸ exec_encNativeOf_encodes native obuf v).completesAs (exec_encNativeOf_encodes (hn.trans native) obuf v)
  · rw [exec_decOf] at h ⊢
    rw [readsOf_decOf] at same
    rw [writesOf_decOf]
    exact decodeOp_completesAs h same
  · rw [exec_decN] at h ⊢
    rw [hn]
    exact decodeOp_completesAs h same

/-- Settles O56: the same bytes are read, and the memory an operation leaves is a function of the one it starts in. -/
theorem noOperationSeesAnotherButThroughMemory : Obligations.NoOperationSeesAnotherButThroughMemory := by
  unfold Obligations.NoOperationSeesAnotherButThroughMemory
  intro i s s' t mem native h
  obtain ⟨t', ht', response, -⟩ := exec_completesAs native.symm h fun a _ => by rw [mem]
  obtain ⟨queue, native', -⟩ := exec_frame ht'
  have memory : t'.mem = t.mem := by rw [exec_mem ht', exec_mem h, mem, native]
  rw [ht', State.eq_of_fields (s := t') (t := { s' with mem := t.mem, response := t.response }) memory queue response native']

/-! ### Two operations in either order (R54) -/

/-- An operation that writes no byte that the next one reads leaves it its results. -/
theorem exec_after_disjoint (hi : exec i s = .next t) (hj : exec j s = .next t')
    (reads : ∀ a, (readsOf s.native s.mem j).has a = true → (writesOf i).has a = false) :
    CompletesAs t' (writesOf j) (exec j t) := by
  obtain ⟨-, native, -, -, frame⟩ := exec_frame hi
  exact exec_completesAs native hj fun a ha => frame a (reads a ha)

/-- Settles O57: each operation has its results when it runs second, and byte by byte the memory in the end holds what the
one that writes the byte wrote. -/
theorem disjointOperationsAreIndependent : Obligations.DisjointOperationsAreIndependent := by
  unfold Obligations.DisjointOperationsAreIndependent
  intro i j s inv wfi wfj noConflict
  have apart := not_exists.mp (mt conflicts_iff.mpr (Bool.eq_false_iff.mp noConflict))
  obtain ⟨ti, hi⟩ := exec_completes wfi
  obtain ⟨tj, hj⟩ := exec_completes wfj
  obtain ⟨tij, hij, responseJ, bytesJ⟩ := exec_after_disjoint hi hj fun a reads =>
    Bool.eq_false_iff.mpr fun writes => apart a (.inl ⟨writes, .inr reads⟩)
  obtain ⟨tji, hji, responseI, bytesI⟩ := exec_after_disjoint hj hi fun a reads =>
    Bool.eq_false_iff.mpr fun writes => apart a (.inr ⟨reads, writes⟩)
  obtain ⟨-, -, fill_i, wf_i, frame_i⟩ := exec_frame hi
  obtain ⟨-, -, fill_j, wf_j, frame_j⟩ := exec_frame hj
  obtain ⟨-, -, fill_ij, wf_ij, frame_ij⟩ := exec_frame hij
  obtain ⟨-, -, fill_ji, wf_ji, frame_ji⟩ := exec_frame hji
  refine ⟨ti, tj, tij, tji, hi, hj, hij, hji, responseJ, responseI, ?memory⟩
  refine Memory.eq_of_reads (wf_ij (wf_i inv)) (wf_ji (wf_j inv)) (by rw [fill_ij, fill_i, fill_ji, fill_j]) fun a => ?_
  cases writesI : (writesOf i).has a with
  | true =>
    have notJ : (writesOf j).has a = false := Bool.eq_false_iff.mpr fun writesJ => apart a (.inl ⟨writesI, .inl writesJ⟩)
    rw [frame_ij a notJ, bytesI a writesI]
  | false =>
    rw [frame_ji a writesI]
    cases writesJ : (writesOf j).has a with
    | true => exact bytesJ a writesJ
    | false => rw [frame_ij a writesJ, frame_i a writesI, frame_j a writesJ]

/-! ### Round trip through two steps (R53, R132) -/

/-- Settles O41: the first step leaves the canonical bytes in OBUF, and the second decodes them there. -/
theorem twoStepsRoundTrip : Obligations.TwoStepsRoundTrip := by
  unfold Obligations.TwoStepsRoundTrip
  intro W obuf n v s rest hn hq
  have first := step_of_lone hq rfl (decode_encode_encOf W s.native obuf v)
  obtain ⟨t, ht, len, bytes, -, -, queue, -⟩ :=
    exec_encOf_encodes W obuf v (s.withQueue (⟨encode (decOf W ⟨obuf, n⟩), 0⟩ :: rest))
  have second := step_of_lone queue rfl (decode_encode_decOf W t.native ⟨obuf, n⟩)
  have value : Returns W (.ok v (lenOf v.toNat)) (t.withQueue rest) (exec (decOf W ⟨obuf, n⟩) (t.withQueue rest)) :=
    returns_exec_decOf_iff.mpr (decodeView_of_value bytes hn)
  exact ⟨t, _, first.trans ht, len, second.trans value, rfl, rfl, rfl⟩

end Sys2Proof.Machine
end
